-- ==== Sys2Proof/Word.lean ====
section
/-! DEFINITION. The plain value types of the hardware: the bytes of the stream, the fields of an
instruction, and the cells of the register file and of data memory. -/

namespace Sys2Proof

/-- One byte of the bytecode stream, 0..255 (R19). -/
abbrev Byte := BitVec 8

/-- The 3-bit opcode tag, byte0 bits 2..0 (R51, R52). -/
abbrev Tag := BitVec 3

/-- The 3-bit register field, byte0 bits 5..3: it names `x[0]` to `x[7]` (R11, R51). -/
abbrev RegNum := BitVec 3

/-- The 10-bit unsigned operand the decoder recovers, 0..1023 (R5 `DEC_OPERAND_BITS`, R59). -/
abbrev Operand := BitVec 10

/-- A register or data-memory cell: an unsigned integer. R12 lets a model take any width of at
least 10 bits or unbounded naturals; naturals are taken (DESIGN CHOICE, safe, log 1). -/
abbrev Cell := Nat

end Sys2Proof
end

