-- ==== Sys2Proof/Config.lean ====
section
/-! DEFINITION. The parameters of the hardware with the value the spec fixes (R5). There is no free
value and no opaque constant: the spec leaves no value of this hardware undefined. -/

namespace Sys2Proof.Config

/-- Register cells provisioned (R5 `NREG`, R10). -/
abbrev nreg : Nat := 16

/-- Data-memory cells, addresses 0..1023 (R5 `MEM_CELLS`, R18). -/
abbrev memCells : Nat := 1024

/-- The smallest constant `Encode` accepts for LOAD_CONST (R5 `CONST_BITS`, R56). -/
abbrev constMin : Int := -16384

/-- The largest constant `Encode` accepts for LOAD_CONST (R5 `CONST_BITS`, R56). -/
abbrev constMax : Int := 16383

/-- The largest operand `Encode` accepts for LOAD_MEM, STORE_MEM and MOD (R5 `ADDR_FIELD_BITS`, R56). -/
abbrev addrFieldMax : Int := 7

/-- The largest register number (R5 `NREG_ADDR`, R56). -/
abbrev regMax : Int := 7

/-- What a data cell no store has written reads as: memory is zero-initialized (R18). -/
abbrev unwrittenCell : Cell := 0

end Sys2Proof.Config
end

