-- ==== Sys2Proof/Syntax.lean ====
section
/-! DEFINITION. The instructions: one constructor per row of the opcode table, and the four opcodes
as the codec, the Encoder and the trace name them. -/

namespace Sys2Proof

/-- The four opcodes (R52). The source's `LoadConst` and the assembly's `LOAD_CONST` are one (R7). -/
inductive Opcode where
  | loadConst
  | loadMem
  | storeMem
  | mod
deriving DecidableEq, Repr

/-- A decoded instruction: one constructor per row of the opcode table, each with the decoded `reg`
and the decoded `operand` of R59. The four illegal tags are rows of the table: `Decode` gives them a
verdict with the same two fields (R62) and the Executor gives them an effect, the fatal fault
`IllegalOpcode` (R83). -/
inductive Instr where
  /-- LOAD_CONST, tag 5 (R100). -/
  | loadConst (r : RegNum) (k : Operand)
  /-- LOAD_MEM, tag 4 (R105). -/
  | loadMem (r : RegNum) (a : Operand)
  /-- STORE_MEM, tag 2 (R106). -/
  | storeMem (r : RegNum) (a : Operand)
  /-- MOD, tag 0 (R115). -/
  | mod (r : RegNum) (a : Operand)
  /-- The illegal tag 1 (R62). -/
  | illegalTag1 (r : RegNum) (k : Operand)
  /-- The illegal tag 3 (R62). -/
  | illegalTag3 (r : RegNum) (k : Operand)
  /-- The illegal tag 6 (R62). -/
  | illegalTag6 (r : RegNum) (k : Operand)
  /-- The illegal tag 7 (R62). -/
  | illegalTag7 (r : RegNum) (k : Operand)
deriving DecidableEq, Repr

/-- The decoded register field. -/
def Instr.reg : Instr → RegNum
  | .loadConst r _ => r
  | .loadMem r _ => r
  | .storeMem r _ => r
  | .mod r _ => r
  | .illegalTag1 r _ => r
  | .illegalTag3 r _ => r
  | .illegalTag6 r _ => r
  | .illegalTag7 r _ => r

/-- The decoded operand field. -/
def Instr.operand : Instr → Operand
  | .loadConst _ k => k
  | .loadMem _ a => a
  | .storeMem _ a => a
  | .mod _ a => a
  | .illegalTag1 _ k => k
  | .illegalTag3 _ k => k
  | .illegalTag6 _ k => k
  | .illegalTag7 _ k => k

/-- The opcode an instruction carries, none for an illegal tag (R62). -/
def Instr.opcode : Instr → Option Opcode
  | .loadConst _ _ => some .loadConst
  | .loadMem _ _ => some .loadMem
  | .storeMem _ _ => some .storeMem
  | .mod _ _ => some .mod
  | .illegalTag1 _ _ => none
  | .illegalTag3 _ _ => none
  | .illegalTag6 _ _ => none
  | .illegalTag7 _ _ => none

end Sys2Proof
end

