-- ==== Sys2Proof/Decode.lean ====
section
/-! DEFINITION. The decoder, total on any bytes, and after it the two encoders: the codec's `Encode`
of R56, from an opcode and two integers, and the words of a decoded instruction. -/

namespace Sys2Proof

/-! ## Decode -/

/-- Why no instruction can be read from a list of bytes: `Decode` needs byte0 and byte1 (R59). -/
inductive DecodeError where
  /-- There is no byte0. -/
  | missingByte0
  /-- There is no byte1. -/
  | missingByte1
deriving DecidableEq, Repr

/-- What `Decode` reads from byte0 and byte1 (R59). -/
structure Fields where
  tag     : Tag
  reg     : RegNum
  operand : Operand
  length  : Nat
deriving DecidableEq, Repr

/-- The tag of an opcode (R52). -/
def Opcode.tag : Opcode → Tag
  | .loadConst => 5
  | .loadMem => 4
  | .storeMem => 2
  | .mod => 0

/-- The tag byte0 carries, bits 2..0 (R51, R59). -/
def tagOf (b0 : Byte) : Tag := b0.extractLsb' 0 3

/-- The register byte0 carries, bits 5..3 (R51, R59). -/
def regOf (b0 : Byte) : RegNum := b0.extractLsb' 3 3

/-- The operand byte0 and byte1 carry: byte1 above byte0 bits 7..6 (R59), all bits of byte1, whatever
the format (R61), and nothing of byte2 (R60). -/
def operandOf (b0 b1 : Byte) : Operand := b1 ++ b0.extractLsb' 6 2

/-- The length rule: the tag alone decides (R53). -/
def lengthOfTag (t : Tag) : Nat := if t = 5 then 3 else 2

/-- The length of an instruction from its byte0 (R53). -/
def lengthOf (b0 : Byte) : Nat := lengthOfTag (tagOf b0)

/-- The length of an opcode's instructions: 3 for LOAD_CONST, 2 for the others (R50). -/
def Opcode.length (op : Opcode) : Nat := lengthOfTag op.tag

/-- The fields of an instruction from its first two bytes (R59). -/
def fieldsOf (b0 b1 : Byte) : Fields where
  tag := tagOf b0
  reg := regOf b0
  operand := operandOf b0 b1
  length := lengthOf b0

/-- The opcode map: the tag selects one of the four instructions or one of the four illegal rows
(R52, R62, R83). -/
def Fields.instr (f : Fields) : Instr :=
  if f.tag = 0 then .mod f.reg f.operand
  else if f.tag = 1 then .illegalTag1 f.reg f.operand
  else if f.tag = 2 then .storeMem f.reg f.operand
  else if f.tag = 3 then .illegalTag3 f.reg f.operand
  else if f.tag = 4 then .loadMem f.reg f.operand
  else if f.tag = 5 then .loadConst f.reg f.operand
  else if f.tag = 6 then .illegalTag6 f.reg f.operand
  else .illegalTag7 f.reg f.operand

/-- The instruction two bytes stand for (R59, R62). -/
def decodePair (b0 b1 : Byte) : Instr := (fieldsOf b0 b1).instr

/-- The fields at the head of a list of bytes, or the name of the missing byte. -/
def decodeFields : List Byte → Except DecodeError Fields
  | [] => .error .missingByte0
  | [_] => .error .missingByte1
  | b0 :: b1 :: _ => .ok (fieldsOf b0 b1)

/-- The instruction at the head of a list of bytes, or the name of the missing byte. -/
def decode (bytes : List Byte) : Except DecodeError Instr :=
  match decodeFields bytes with
  | .ok f => .ok f.instr
  | .error e => .error e

/-- `Decode(S, a)` of R59: the fields at offset `a` of the stream. -/
def decodeAt (stream : List Byte) (a : Nat) : Except DecodeError Fields :=
  decodeFields (stream.drop a)

/-! ## Encode -/

/-- Which argument of `Encode` is out of range (R56, R128). -/
inductive RangeError where
  /-- `reg` is outside 0..7. -/
  | reg
  /-- `operand` is outside the opcode's range. -/
  | operand
deriving DecidableEq, Repr

/-- The 15-bit value of a LOAD_CONST constant: itself when not negative, else `2^15` plus it (R57). -/
def normaliseConst (c : Int) : BitVec 15 :=
  BitVec.ofNat 15 (if 0 ≤ c then c else 32768 + c).toNat

/-- byte0: the low two operand bits in 7..6, the register in 5..3, the tag in 2..0 (R51). -/
def packByte0 (t : Tag) (r : RegNum) (low : BitVec 2) : Byte := low ++ r ++ t

/-- The three bytes of the C-format (R54). -/
def packConst (r : RegNum) (v : BitVec 15) : List Byte :=
  [packByte0 5 r (v.extractLsb' 0 2), v.extractLsb' 2 8, (0#3 ++ v.extractLsb' 10 5)]

/-- The two bytes of the M-format for a 3-bit operand (R55). -/
def packAddr (t : Tag) (r : RegNum) (a : BitVec 3) : List Byte :=
  [packByte0 t r (a.extractLsb' 0 2), (0#7 ++ a.extractLsb' 2 1)]

/-- The operand range of an opcode (R56). -/
def Opcode.operandInRange (op : Opcode) (operand : Int) : Bool :=
  match op with
  | .loadConst => decide (Config.constMin ≤ operand) && decide (operand ≤ Config.constMax)
  | .loadMem => decide (0 ≤ operand) && decide (operand ≤ Config.addrFieldMax)
  | .storeMem => decide (0 ≤ operand) && decide (operand ≤ Config.addrFieldMax)
  | .mod => decide (0 ≤ operand) && decide (operand ≤ Config.addrFieldMax)

/-- `Encode(op, reg, operand)` of R56: the bytes, or the first argument found out of range, `reg`
before `operand` (D13). -/
def encodeTriple (op : Opcode) (reg operand : Int) : Except RangeError (List Byte) :=
  if reg < 0 ∨ Config.regMax < reg then .error .reg
  else if op.operandInRange operand = false then .error .operand
  else match op with
    | .loadConst => .ok (packConst (BitVec.ofInt 3 reg) (normaliseConst operand))
    | .loadMem => .ok (packAddr Opcode.loadMem.tag (BitVec.ofInt 3 reg) (BitVec.ofInt 3 operand))
    | .storeMem => .ok (packAddr Opcode.storeMem.tag (BitVec.ofInt 3 reg) (BitVec.ofInt 3 operand))
    | .mod => .ok (packAddr Opcode.mod.tag (BitVec.ofInt 3 reg) (BitVec.ofInt 3 operand))

/-- The first two bytes that the decoder reads as a tag, a register and a 10-bit operand (R59, R61). -/
def packPair (t : Tag) (r : RegNum) (k : Operand) : List Byte :=
  [packByte0 t r (k.extractLsb' 0 2), k.extractLsb' 2 8]

/-- The bytes of a decoded instruction, every operand bit the decoder reads in its place. byte2 of a
LOAD_CONST, which the decoder never reads (R60), is written 0, as `Encode` writes it for 0..1023 (R54).
Where the instruction is well formed these are the bytes of `encodeTriple`. -/
def encode : Instr → List Byte
  | .loadConst r k => packPair 5 r k ++ [0]
  | .loadMem r a => packPair 4 r a
  | .storeMem r a => packPair 2 r a
  | .mod r a => packPair 0 r a
  | .illegalTag1 r k => packPair 1 r k
  | .illegalTag3 r k => packPair 3 r k
  | .illegalTag6 r k => packPair 6 r k
  | .illegalTag7 r k => packPair 7 r k

/-! ## One table word -/

/-- The three bytes of the instruction whose `nbits` table bits are `w` and whose other bits are 0:
byte0 is bits 7..0, byte1 bits 15..8, byte2 bits 23..16 (the little-endian reading of R54, R55). -/
def tableWordBytes (nbits w : Nat) : List Byte :=
  [BitVec.ofNat 8 (w % 2 ^ nbits), BitVec.ofNat 8 (w % 2 ^ nbits / 256),
    BitVec.ofNat 8 (w % 2 ^ nbits / 65536)]

/-- The instruction the decoder reads from a word of the opcode table. -/
def decodeTableWord (nbits w : Nat) : Option Instr :=
  match decode (tableWordBytes nbits w) with
  | .ok i => some i
  | .error _ => none

end Sys2Proof
end

