-- ==== Sys2Proof/Machine/State.lean ====
section
/-! DEFINITION. The state of a run, as R29 lists it, the state after reset, and the reasons a step
can stop. -/

namespace Sys2Proof.Machine

/-- The cause of a fatal fault, carried by the status `Aborted(cause)` (R22, R125). A closed
enumeration: the source numbers no causes (N7). -/
inductive AbortCause where
  /-- A data access outside the window, with the address (R126, D21). -/
  | outOfBounds (addr : Nat)
  /-- byte1 of the instruction lies past the end of the stream, with its offset (R131). -/
  | fetchOutOfStream (offset : Nat)
  /-- The tag at `pc` is 1, 3, 6 or 7, with the tag (R130). -/
  | illegalOpcode (tag : Tag)
deriving DecidableEq, Repr

/-- The run status (R22). `halted` and `aborted` are terminal. -/
inductive Status where
  | running
  | halted
  | aborted (cause : AbortCause)
deriving DecidableEq, Repr

/-- The outcome field of a trace record (R24). -/
inductive Effect where
  /-- The register written and its new value. -/
  | regWrite (reg : RegNum) (value : Cell)
  /-- The data cell written and its new value. -/
  | memWrite (addr : Nat) (value : Cell)
  /-- A MOD met a zero divisor: the register and the address involved (R116). -/
  | divByZero (reg : RegNum) (addr : Nat)
deriving DecidableEq, Repr

/-- One trace record, `(pc, op, reg, operand, outcome)` (R24, D9). -/
structure Record where
  pc      : Nat
  op      : Opcode
  reg     : RegNum
  operand : Operand
  outcome : Effect
deriving DecidableEq, Repr

/-- The execution window, both bounds inclusive (R20). -/
structure Window where
  low  : Nat
  high : Nat
deriving DecidableEq, Repr

/-- Data memory: (address, cell) pairs, the address strictly rising and no cell equal to what an
unlisted address reads as (log 3). -/
abbrev Memory := List (Nat × Cell)

/-- The state of a run: every item of R29 and no more. -/
structure State where
  /-- `x[0]` to `x[15]`, of which an instruction can name `x[0]` to `x[7]` (R10, R11). -/
  x      : Vector Cell 16
  /-- The program counter, a byte offset into the stream (R15). -/
  pc     : Nat
  /-- Data memory `M[0]` to `M[1023]` (R18). -/
  mem    : Memory
  /-- The run status (R22). -/
  status : Status
  /-- The trace, oldest record first (R23). -/
  trace  : List Record
  /-- The bytecode stream `S`, an input of the run; its length is `L` (R19, R21). -/
  stream : List Byte
  /-- The execution window, an input of the run (R20). -/
  window : Window
deriving DecidableEq, Repr

/-- Why the machine stops with a fault. No instruction raises one: a fatal fault of an instruction is
a next state with the status `Aborted(cause)` (R85, R134). -/
inductive Fault where
  /-- Raised by a step from a state whose status is `Aborted(cause)`, with that cause: no step is
  taken from it (R22) and the caller receives the cause (R134, R141). Safe: the machine goes no
  further than the spec lets it. -/
  | runAborted (cause : AbortCause)
deriving DecidableEq, Repr

/-- Why the machine refuses an instruction. -/
inductive Refusal where
  /-- Raised by an arm of `exec` whose instruction has no meaning yet, by its mnemonic. No arm is
  left that does. Safe: nothing can be proved of a refused instruction's effect. -/
  | notModelled (mnemonic : String)
deriving DecidableEq, Repr

/-- The machine right after reset for a run on a stream and a window: reset is the construction of
the state at the start of a run (R145), with the values of R29 and R146. -/
def State.start (stream : List Byte) (window : Window) : State where
  x := Vector.replicate 16 0
  pc := window.low
  mem := []
  status := .running
  trace := []
  stream := stream
  window := window

/-- The machine right after reset. The stream and the window are inputs to which the spec gives no
reset value (R20, R29): the empty stream and the window `(0, 1023)` stand for them (DESIGN CHOICE,
unsafe, log 5). -/
def State.reset : State := State.start [] ⟨0, 1023⟩

end Sys2Proof.Machine
end

