-- ==== Sys2Proof/Machine/Operands.lean ====
section
/-! DEFINITION. The operand forms: a register number, the constant of LOAD_CONST, and the one
addressing mode, absolute. There are no others (R107), and there are no flags (R17). -/

namespace Sys2Proof.Machine

/-- The cell a register field names: index 0..7 of the 16 (R11). -/
def regIndex (r : RegNum) : Fin Config.nreg := ⟨r.toNat, Nat.lt_trans r.isLt (by decide)⟩

/-- The constant of a LOAD_CONST: the decoded operand, unsigned, never sign-extended (R60, R100). -/
def constantOf (k : Operand) : Cell := k.toNat

/-- The effective address: the decoded operand as it is, `EA = k` (R31, R107). -/
def effectiveAddress (a : Operand) : Nat := a.toNat

end Sys2Proof.Machine
end

