-- ==== Sys2Proof/Machine/Ops.lean ====
section
/-! DEFINITION. The named operations over registers, data memory, the stream and the status, each
written once: every instruction is built from them. -/

namespace Sys2Proof.Machine

/-! ## Data memory as plain data -/

/-- The cell at an address: the listed one, else what an unlisted address reads as (R18). -/
def Memory.read : Memory → Nat → Cell
  | [], _ => Config.unwrittenCell
  | (b, v) :: m, a => if b = a then v else Memory.read m a

/-- The memory with nothing listed at an address. -/
def Memory.erase (m : Memory) (a : Nat) : Memory := m.filter fun p => decide (p.1 ≠ a)

/-- The memory with a pair put in its place in the rising order. -/
def Memory.insert : Memory → Nat → Cell → Memory
  | [], a, v => [(a, v)]
  | (b, w) :: m, a, v => if a < b then (a, v) :: (b, w) :: m else (b, w) :: Memory.insert m a v

/-- The memory with one cell replaced, in canonical form: the value an unlisted address reads as is
not listed (log 3). -/
def Memory.write (m : Memory) (a : Nat) (v : Cell) : Memory :=
  if v = Config.unwrittenCell then Memory.erase m a else Memory.insert (Memory.erase m a) a v

/-- The canonical form: addresses strictly rising and within the 1024 cells, and no entry equal to
what an unlisted address reads as (log 3). -/
abbrev Memory.wf (m : Memory) : Prop :=
  m.Pairwise (fun p q => p.1 < q.1) ∧ ∀ p ∈ m, p.1 < Config.memCells ∧ p.2 ≠ Config.unwrittenCell

/-! ## Registers -/

/-- `x[r]`: never fails, no register is hardwired (R13). -/
def State.readReg (s : State) (r : RegNum) : Cell := s.x[regIndex r]

/-- `x[r] <- v` (R13). -/
def State.writeReg (s : State) (r : RegNum) (v : Cell) : State :=
  { s with x := s.x.set (regIndex r) v }

/-! ## The window-checked accessors -/

/-- An address the accessors let through: inside the window, both bounds inclusive (R32), and inside
the physical array, which a decoded operand always is (R35, D17). -/
def State.canAccess (s : State) (a : Nat) : Bool :=
  decide (s.window.low ≤ a) && decide (a ≤ s.window.high) && decide (a < Config.memCells)

/-- `MemRead(a, 1)` of R32. -/
def State.memRead (s : State) (a : Nat) : Except AbortCause Cell :=
  if s.canAccess a then .ok (s.mem.read a) else .error (.outOfBounds a)

/-- `MemWrite(a, 1, v)` of R33. -/
def State.memWrite (s : State) (a : Nat) (v : Cell) : Except AbortCause State :=
  if s.canAccess a then .ok { s with mem := s.mem.write a v } else .error (.outOfBounds a)

/-- `Fetch(a)` of R34: a byte of the stream, not checked against the window. -/
def State.fetchByte (s : State) (a : Nat) : Except AbortCause Byte :=
  match s.stream[a]? with
  | some b => .ok b
  | none => .error (.fetchOutOfStream a)

/-! ## Ends of a step -/

/-- Taking a fatal fault, the one exception of this hardware: the status becomes `Aborted(cause)` and
nothing else changes (R85, R134, R135). There is no return from it (R136). -/
def State.abort (s : State) (cause : AbortCause) : State := { s with status := .aborted cause }

/-- The normal end of a run: the status becomes `Halted` and nothing else changes (R81). -/
def State.halt (s : State) : State := { s with status := .halted }

/-- The end of a completed instruction: one trace record with the `pc` before the advance, then the
advance by the opcode's length (R86, R87). -/
def State.retire (s : State) (op : Opcode) (r : RegNum) (k : Operand) (out : Effect) : State :=
  { s with
    trace := s.trace ++ [{ pc := s.pc, op := op, reg := r, operand := k, outcome := out }]
    pc := s.pc + op.length }

/-- Go on with the result of an access, or take its fault in the state `s` the instruction started
from, which makes faults precise (R85, R135). -/
def State.orAbort {α : Type} (s : State) (access : Except AbortCause α) (go : α → State) :
    Host.Outcome State Fault Refusal :=
  match access with
  | .ok v => .next (go v)
  | .error cause => .next (s.abort cause)

/-- The instruction ends by writing a register: the effect of LOAD_CONST, LOAD_MEM and MOD. -/
def State.retireRegWrite (s : State) (op : Opcode) (r : RegNum) (k : Operand) (v : Cell) : State :=
  (s.writeReg r v).retire op r k (.regWrite r v)

/-- The remainder of R117: on naturals with `m > 0`, the `rem < m` with `n = q * m + rem` (D15). -/
def remainder (n m : Cell) : Cell := n % m

end Sys2Proof.Machine
end

