-- ==== Sys2Proof/Machine/Illegal.lean ====
section
/-! DEFINITION. The four illegal tags: each raises the fatal fault `IllegalOpcode` with its tag, at
dispatch, so that nothing but the status changes (R62, R83, R130, D6). -/

namespace Sys2Proof.Machine

/-- Tag 1 (R130). -/
def execIllegalTag1 (s : State) : Host.Outcome State Fault Refusal := .next (s.abort (.illegalOpcode 1))

/-- Tag 3 (R130). -/
def execIllegalTag3 (s : State) : Host.Outcome State Fault Refusal := .next (s.abort (.illegalOpcode 3))

/-- Tag 6 (R130). -/
def execIllegalTag6 (s : State) : Host.Outcome State Fault Refusal := .next (s.abort (.illegalOpcode 6))

/-- Tag 7 (R130). -/
def execIllegalTag7 (s : State) : Host.Outcome State Fault Refusal := .next (s.abort (.illegalOpcode 7))

end Sys2Proof.Machine
end

