-- ==== Sys2Proof/Machine/LoadConst.lean ====
section
/-! DEFINITION. LOAD_CONST (41_load_const.md). -/

namespace Sys2Proof.Machine

/-- LOAD_CONST `r`, `k` (R100): `x[r] <- k`, one record, `pc <- pc + 3`. It always succeeds. -/
def execLoadConst (r : RegNum) (k : Operand) (s : State) : Host.Outcome State Fault Refusal :=
  .next (s.retireRegWrite .loadConst r k (constantOf k))

end Sys2Proof.Machine
end

