-- ==== Sys2Proof/Machine/LoadStore.lean ====
section
/-! DEFINITION. LOAD_MEM and STORE_MEM (42_load_store_mem.md). -/

namespace Sys2Proof.Machine

/-- LOAD_MEM `r`, `a` (R105): `x[r] <- MemRead(a, 1)`, one record, `pc <- pc + 2`. -/
def execLoadMem (r : RegNum) (a : Operand) (s : State) : Host.Outcome State Fault Refusal :=
  s.orAbort (s.memRead (effectiveAddress a)) fun v => s.retireRegWrite .loadMem r a v

/-- STORE_MEM `r`, `a` (R106): `MemWrite(a, 1, x[r])`, one record, `pc <- pc + 2`. -/
def execStoreMem (r : RegNum) (a : Operand) (s : State) : Host.Outcome State Fault Refusal :=
  s.orAbort (s.memWrite (effectiveAddress a) (s.readReg r)) fun t =>
    t.retire .storeMem r a (.memWrite (effectiveAddress a) (s.readReg r))

end Sys2Proof.Machine
end

