-- ==== Sys2Proof/Machine/Mod.lean ====
section
/-! DEFINITION. MOD (43_mod.md), the one arithmetic instruction. -/

namespace Sys2Proof.Machine

/-- The end of a MOD whose divisor has been read: a division-by-zero record and no write when it is
zero (R116), else the remainder (R115, R117). -/
def State.retireMod (s : State) (r : RegNum) (a : Operand) (m : Cell) : State :=
  if m = 0 then s.retire .mod r a (.divByZero r (effectiveAddress a))
  else s.retireRegWrite .mod r a (remainder (s.readReg r) m)

/-- MOD `r`, `a` (R115): `x[r] <- x[r] mod MemRead(a, 1)`, one record, `pc <- pc + 2`; the bounds check
comes before the test of the divisor (R133). -/
def execMod (r : RegNum) (a : Operand) (s : State) : Host.Outcome State Fault Refusal :=
  s.orAbort (s.memRead (effectiveAddress a)) fun m => s.retireMod r a m

end Sys2Proof.Machine
end

