-- ==== Sys2Proof/Machine/Dispatch.lean ====
section
/-! DEFINITION. What each decoded instruction does: one arm per row of the opcode table (R83, R84). -/

namespace Sys2Proof.Machine

def exec (i : Instr) (s : State) : Host.Outcome State Fault Refusal :=
  match i with
  | .loadConst r k => Sys2Proof.Machine.execLoadConst r k s
  | .loadMem r a => Sys2Proof.Machine.execLoadMem r a s
  | .storeMem r a => Sys2Proof.Machine.execStoreMem r a s
  | .mod r a => Sys2Proof.Machine.execMod r a s
  | .illegalTag1 _ _ => Sys2Proof.Machine.execIllegalTag1 s
  | .illegalTag3 _ _ => Sys2Proof.Machine.execIllegalTag3 s
  | .illegalTag6 _ _ => Sys2Proof.Machine.execIllegalTag6 s
  | .illegalTag7 _ _ => Sys2Proof.Machine.execIllegalTag7 s

end Sys2Proof.Machine
end

