-- ==== Sys2Proof/Machine/Fetch.lean ====
section
/-! DEFINITION. The part of a step before the instruction runs: the status, the halt test, the fetch
of byte0 and byte1 and the decoding (R81 to R83), and the placing of an instruction where the next
fetch finds it. -/

namespace Sys2Proof.Machine

/-- The halt test: `pc > window.high or pc >= L` (R81). -/
def State.haltTest (s : State) : Bool :=
  decide (s.window.high < s.pc) || decide (s.stream.length ≤ s.pc)

/-- The fetch of byte0 and then of byte1; byte2 is never fetched (R82). -/
def State.fetchPair (s : State) : Except AbortCause (Byte × Byte) :=
  match s.fetchByte s.pc with
  | .error cause => .error cause
  | .ok b0 =>
    match s.fetchByte (s.pc + 1) with
    | .error cause => .error cause
    | .ok b1 => .ok (b0, b1)

/-- How the part of a step before the instruction ends. -/
inductive FetchPhase where
  /-- The step is over, with this outcome, and no instruction runs. -/
  | ended (o : Host.Outcome State Fault Refusal)
  /-- This instruction runs. -/
  | run (i : Instr)

/-- The step up to dispatch (R88). From `Halted` nothing changes (DESIGN CHOICE, safe, log 8), and from
`Aborted(cause)` the caller gets the cause as a fault (DESIGN CHOICE, safe, log 9): no step is taken from a
terminal status (R22). -/
def State.fetchPhase (s : State) : FetchPhase :=
  match s.status with
  | .halted => .ended (.next s)
  | .aborted cause => .ended (.fault (.runAborted cause))
  | .running =>
    if s.haltTest then .ended (.next s.halt)
    else match s.fetchPair with
      | .error cause => .ended (.next (s.abort cause))
      | .ok (b0, b1) => .run (decodePair b0 b1)

/-- A stream with the given bytes at an offset: bytes before it are kept (0 where there were none),
bytes after it are kept. -/
def placeBytes (stream : List Byte) (at_ : Nat) (bytes : List Byte) : List Byte :=
  stream.take at_ ++ List.replicate (at_ - stream.length) 0 ++ bytes
    ++ stream.drop (at_ + bytes.length)

/-- The state in which the next step fetches the given bytes: they stand at `pc`, `pc` passes the halt
test, and the status is `Running` (log 6). -/
def State.placeInstruction (s : State) (bytes : List Byte) : State :=
  { s with
    stream := placeBytes s.stream s.pc bytes
    window := { s.window with high := max s.window.high s.pc }
    status := .running }

end Sys2Proof.Machine
end

