-- ==== Sys2Proof/Machine/Step.lean ====
section
/-! DEFINITION. One step of the Executor: the whole of R88 as one transition (R89, D16). -/

namespace Sys2Proof.Machine

/-- One step: halt test, fetch, decode, execute, trace, advance (R88). -/
def step (s : State) : Host.Outcome State Fault Refusal :=
  match s.fetchPhase with
  | .ended o => o
  | .run i => exec i s

/-- The state in which the next step fetches and runs the instruction whose table bits are `w`. -/
def State.withFetchWord (s : State) (nbits w : Nat) : State :=
  s.placeInstruction (tableWordBytes nbits w)

end Sys2Proof.Machine
end

