-- ==== Sys2Proof/Machine/Encoder.lean ====
section
/-! DEFINITION. The Encoder: one assembly line in, bytes and a log record out (R67 to R74). It has no
state; what accumulates is its output (R28). A line is a list of characters. -/

namespace Sys2Proof.Machine

/-- An assembly line: trimmed and non-empty by the caller's contract (R4, R68). -/
abbrev Line := List Char

/-- Why a line is rejected (R69). -/
inductive ValidationError where
  | unknownMnemonic
  | tokenCount
  | notInteger
  | range
deriving DecidableEq, Repr

/-- A token separator: a space or a tab (R68, D12). -/
def isSeparator (c : Char) : Bool := c == ' ' || c == '\t'

/-- The tokens of a line, separated by one or more separators (R68, D12). A separator before the first
token or after the last makes an empty token there, which no mnemonic and no integer is: a line that is
not trimmed is outside the Encoder's contract and is not accepted (U12, log 19). -/
def splitTokens : Line → List (List Char)
  | [] => [[]]
  | c :: cs =>
    match isSeparator c, cs, splitTokens cs with
    | true, [], ts => [] :: ts
    | true, d :: _, ts => if isSeparator d then ts else [] :: ts
    | false, _, [] => [[c]]
    | false, _, t :: ts => (c :: t) :: ts

/-- The assembly mnemonic of an opcode, matched exactly and in upper case (R7, R68, D12). -/
def mnemonicText : Opcode → List Char
  | .loadConst => ['L', 'O', 'A', 'D', '_', 'C', 'O', 'N', 'S', 'T']
  | .loadMem => ['L', 'O', 'A', 'D', '_', 'M', 'E', 'M']
  | .storeMem => ['S', 'T', 'O', 'R', 'E', '_', 'M', 'E', 'M']
  | .mod => ['M', 'O', 'D']

/-- The opcode of a mnemonic token (R68). -/
def parseMnemonic (t : List Char) : Option Opcode :=
  if t = mnemonicText .loadConst then some .loadConst
  else if t = mnemonicText .loadMem then some .loadMem
  else if t = mnemonicText .storeMem then some .storeMem
  else if t = mnemonicText .mod then some .mod
  else none

/-- The value of a decimal digit. -/
def digitValue (c : Char) : Option Nat :=
  if '0'.toNat ≤ c.toNat ∧ c.toNat ≤ '9'.toNat then some (c.toNat - '0'.toNat) else none

/-- The value of zero or more decimal digits read after the value `acc`. -/
def parseDigits : Nat → List Char → Option Nat
  | acc, [] => some acc
  | acc, c :: cs =>
    match digitValue c with
    | some d => parseDigits (10 * acc + d) cs
    | none => none

/-- One or more decimal digits (D12). -/
def parseNatural : List Char → Option Nat
  | [] => none
  | c :: cs => parseDigits 0 (c :: cs)

/-- An integer token: an optional `-` and one or more decimal digits (R68, D12). -/
def parseInteger : List Char → Option Int
  | '-' :: cs => (parseNatural cs).map fun (n : Nat) => -(n : Int)
  | cs => (parseNatural cs).map fun (n : Nat) => (n : Int)

/-- What the Encoder reports for one line (R72, D20). -/
inductive LogRecord where
  /-- The line was encoded: the triple as the source line has it, and its bytes. -/
  | encoded (op : Opcode) (reg operand : Int) (bytes : List Byte)
  /-- The line failed: the line and the reason. -/
  | failed (line : Line) (reason : ValidationError)
deriving DecidableEq, Repr

/-- The triple of a line that has the form of R68, or the first reason it does not, in the order of
R70: the mnemonic, the token count, the first operand, the second. -/
def parseLine (line : Line) : Except ValidationError (Opcode × Int × Int) :=
  match splitTokens line with
  | [] => .error .unknownMnemonic
  | m :: operands =>
    match parseMnemonic m with
    | none => .error .unknownMnemonic
    | some op =>
      match operands with
      | [a, b] =>
        match parseInteger a, parseInteger b with
        | some reg, some operand => .ok (op, reg, operand)
        | _, _ => .error .notInteger
      | _ => .error .tokenCount

/-- The Encoder on one line: its bytes, or the reason it is rejected; a `RangeError` of the codec
surfaces as `range` (R67, R69, C3). -/
def encodeLine (line : Line) : Except ValidationError (Opcode × Int × Int × List Byte) :=
  match parseLine line with
  | .error e => .error e
  | .ok (op, reg, operand) =>
    match encodeTriple op reg operand with
    | .ok bytes => .ok (op, reg, operand, bytes)
    | .error _ => .error .range

/-- The bytes a line contributes to the stream: none when it is rejected (R71). -/
def lineBytes (line : Line) : List Byte :=
  match encodeLine line with
  | .ok (_, _, _, bytes) => bytes
  | .error _ => []

/-- The log record of a line (R72). -/
def lineLog (line : Line) : LogRecord :=
  match encodeLine line with
  | .ok (op, reg, operand, bytes) => .encoded op reg operand bytes
  | .error e => .failed line e

/-- The output of the Encoder for a sequence of lines (R8, R71, R72). -/
structure EncoderOutput where
  bytes : List Byte
  log   : List LogRecord
deriving DecidableEq, Repr

/-- The Encoder on a sequence of lines: the flat concatenation of the encoded bytes in source order,
with the rejected lines skipped, and one log record per line (R71, R72). -/
def assemble : List Line → EncoderOutput
  | [] => { bytes := [], log := [] }
  | line :: lines =>
    { bytes := lineBytes line ++ (assemble lines).bytes
      log := lineLog line :: (assemble lines).log }

end Sys2Proof.Machine
end

