-- ==== Sys2Proof/Machine/Run.lean ====
section
/-! DEFINITION. A whole run of the Executor: steps while the status is `Running` (R80), and what the
host reads afterwards (R94). -/

namespace Sys2Proof.Machine

/-- At most `n` steps, stopping where the status is no longer `Running` (R80). -/
def State.runSteps : Nat → State → State
  | 0, s => s
  | n + 1, s =>
    match s.status with
    | .halted => s
    | .aborted _ => s
    | .running =>
      match step s with
      | .next t => State.runSteps n t
      | .fault _ => s
      | .refused _ => s

/-- The largest number of instructions a run can still complete from this state: the bound of R90,
`ceil((min(window.high, L - 1) - pc + 1) / 2)`, and 0 where the halt test holds. -/
def State.stepBound (s : State) : Nat := (min (s.window.high + 1) s.stream.length - s.pc + 1) / 2

/-- What the host receives and may read after a run (R27, R94, D19). -/
structure RunResult where
  trace  : List Record
  status : Status
  x      : Vector Cell 16
  mem    : Memory
  pc     : Nat
deriving DecidableEq, Repr

/-- The outputs of a run, read off its last state (R94). -/
def State.result (s : State) : RunResult where
  trace := s.trace
  status := s.status
  x := s.x
  mem := s.mem
  pc := s.pc

/-- The Executor's interface: a stream and a window in, the results out (R8, R80, R94). The bound of
R90 and one step more, for the halt test, are enough for every run to end. -/
def run (stream : List Byte) (window : Window) : RunResult :=
  ((State.start stream window).runSteps ((State.start stream window).stepBound + 1)).result

end Sys2Proof.Machine
end

