-- ==== Sys2Proof/Safety.lean ====
section
/-! DEFINITION. What a good state of a run is, in the words the statements use: the values cells may
hold, what the trace accounts for, when a status is justified, and what a completed instruction leaves. -/

namespace Sys2Proof.Machine

/-- The values invariant: every register and every data cell holds a value in 0..1023 (R12), the cells
`x[8]` to `x[15]` hold 0 (R11), and memory is in its canonical form (log 3). -/
structure State.ValuesOk (s : State) : Prop where
  regsBounded   : ∀ i : Fin 16, s.x[i] ≤ 1023
  cellsBounded  : ∀ a, s.mem.read a ≤ 1023
  upperRegsZero : ∀ i : Fin 16, 8 ≤ i.val → s.x[i] = 0
  memCanonical  : s.mem.wf

/-- The instruction at an offset of the stream, where both of its bytes are there. -/
def instrAt (stream : List Byte) (a : Nat) : Option Instr :=
  match decode (stream.drop a) with
  | .ok i => some i
  | .error _ => none

/-- The records stand at consecutive instruction addresses, from `p` up to `q` (R16, R86, R92). -/
def chained : Nat → List Record → Nat → Prop
  | p, [], q => p = q
  | p, e :: es, q => e.pc = p ∧ chained (p + e.op.length) es q

/-- A record names the instruction that stands at its `pc`, which is inside the window (R24, R81). -/
def Record.names (stream : List Byte) (w : Window) (e : Record) : Prop :=
  e.pc ≤ w.high ∧
    ∃ i, instrAt stream e.pc = some i ∧ i.opcode = some e.op ∧ i.reg = e.reg ∧ i.operand = e.operand

/-- Why a state has the status it has: `Halted` only where the halt test holds (R81), and `Aborted`
only where the halt test fails and the instruction at `pc` has the cause (R126, R130, R131). -/
def State.statusJustified (s : State) : Prop :=
  match s.status with
  | .running => True
  | .halted => s.window.high < s.pc ∨ s.stream.length ≤ s.pc
  | .aborted (.fetchOutOfStream o) => s.pc ≤ s.window.high ∧ o = s.pc + 1 ∧ o = s.stream.length
  | .aborted (.illegalOpcode t) =>
      s.pc ≤ s.window.high ∧
        ∃ i, instrAt s.stream s.pc = some i ∧ i.opcode = none ∧
          ∃ b0, s.stream[s.pc]? = some b0 ∧ t = tagOf b0
  | .aborted (.outOfBounds a) =>
      s.pc ≤ s.window.high ∧
        ∃ i op, instrAt s.stream s.pc = some i ∧ i.opcode = some op ∧ op ≠ .loadConst ∧
          a = effectiveAddress i.operand ∧ (a < s.window.low ∨ s.window.high < a)

/-- The control invariant: the trace is the straight line of instructions from `window.low` to `pc`
(R92), `pc` stays in the range of R16, and the status is justified. -/
structure State.ControlOk (s : State) : Prop where
  straightLine : chained s.window.low s.trace s.pc
  recordsNamed : ∀ e ∈ s.trace, e.names s.stream s.window
  pcBounded    : s.pc = s.window.low ∨ (s.pc ≤ s.window.high + 3 ∧ s.pc ≤ s.stream.length + 2)
  status       : s.statusJustified

/-- What a register holds after a record, from what it held before (R24). -/
def Record.regAfter (e : Record) (r : RegNum) (old : Cell) : Cell :=
  match e.outcome with
  | .regWrite q v => if q = r then v else old
  | .memWrite _ _ => old
  | .divByZero _ _ => old

/-- What a data cell holds after a record, from what it held before (R24). -/
def Record.cellAfter (e : Record) (a : Nat) (old : Cell) : Cell :=
  match e.outcome with
  | .regWrite _ _ => old
  | .memWrite b v => if b = a then v else old
  | .divByZero _ _ => old

/-- The value the last record that wrote a register gave it, 0 if there is none (R13). -/
def lastRegWrite (tr : List Record) (r : RegNum) : Cell :=
  tr.foldl (fun old e => e.regAfter r old) 0

/-- The value the last record that wrote a data cell gave it, 0 if there is none (R43). -/
def lastMemWrite (tr : List Record) (a : Nat) : Cell :=
  tr.foldl (fun old e => e.cellAfter a old) 0

/-- The outcome R24's table gives an instruction's record, from what its register and the data cell at
its address held before it. -/
def tableOutcome (op : Opcode) (r : RegNum) (k : Operand) (x m : Cell) : Effect :=
  match op with
  | .loadConst => .regWrite r (constantOf k)
  | .loadMem => .regWrite r m
  | .storeMem => .memWrite (effectiveAddress k) x
  | .mod => if m = 0 then .divByZero r (effectiveAddress k) else .regWrite r (x % m)

/-- The outcome R24's table gives a record, from the values the records before it left. -/
def expectedOutcome (before : List Record) (e : Record) : Effect :=
  tableOutcome e.op e.reg e.operand (lastRegWrite before e.reg)
    (lastMemWrite before (effectiveAddress e.operand))

/-- The data invariant: the trace alone accounts for every register and every data cell, and every
record's outcome is the one R24 gives it in the state the records before it left (R13, R43). -/
structure State.TraceExplains (s : State) : Prop where
  registers : ∀ r, s.readReg r = lastRegWrite s.trace r
  cells     : ∀ a, s.mem.read a = lastMemWrite s.trace a
  outcomes  : ∀ before e after, s.trace = before ++ e :: after → e.outcome = expectedOutcome before e

/-- What a completed instruction leaves besides its effect: one record, the advance by its length
(R86, R87), the status, the stream and the window as they were. -/
structure Completed (s t : State) (e : Record) : Prop where
  trace  : t.trace = s.trace ++ [e]
  pc     : t.pc = s.pc + (if e.op = .loadConst then 3 else 2)
  status : t.status = s.status
  stream : t.stream = s.stream
  window : t.window = s.window

/-- Every register but one reads as before, the eight that no instruction can name among them. -/
structure OnlyRegChanged (s t : State) (r : RegNum) : Prop where
  others : ∀ q, q ≠ r → t.readReg q = s.readReg q
  upper  : ∀ i : Fin 16, 8 ≤ i.val → t.x[i] = s.x[i]

/-- The rest of the stream from `pc` is a sequence of instructions as the codec encoded them (R71). -/
def State.OnBoundary (s : State) : Prop :=
  ∃ chunks : List (List Byte), s.stream.drop s.pc = chunks.flatten ∧
    ∀ c ∈ chunks, ∃ op reg operand, encodeTriple op reg operand = .ok c

/-- The decimal digit character of a number below 10. -/
def digitChar (d : Nat) : Char := Char.ofNat (48 + d)

/-- The number a list of decimal digits stands for, the most significant first. -/
def decimalValue (ds : List Nat) : Nat := ds.foldl (fun n d => 10 * n + d) 0

end Sys2Proof.Machine
end

