-- ==== Sys2Proof/WellFormed.lean ====
section
/-! DEFINITION. Which decoded instructions are well formed: those whose bytes the codec's `Encode` can
produce (the canonical encodings of R54 and R55). The field widths are carried by the types, so what
is left to check is the opcode and the operand range of R56. The decoder and the Executor accept more
than this (R61, R63): nothing in the machine asks for well-formedness. -/

namespace Sys2Proof

/-- The operand is in the 3-bit range `Encode` accepts for the M-format (R55, R56). -/
def Operand.fitsAddressField (a : Operand) : Bool :=
  decide ((a.toNat : Int) ≤ Config.addrFieldMax)

/-- `Encode` can produce the instruction: its tag is one of the four opcodes (R62) and an M-format
operand is in 0..7 (R56). Every decoded LOAD_CONST operand, 0..1023, is in the constant's range. -/
def Instr.wellFormed : Instr → Bool
  | .loadConst _ _ => true
  | .loadMem _ a => Operand.fitsAddressField a
  | .storeMem _ a => Operand.fitsAddressField a
  | .mod _ a => Operand.fitsAddressField a
  | .illegalTag1 _ _ => false
  | .illegalTag3 _ _ => false
  | .illegalTag6 _ _ => false
  | .illegalTag7 _ _ => false

end Sys2Proof
end

