-- ==== Sys2Proof/Certificates/Slice0/Obligations.lean ====
section
/-! DEFINITION. The statements for the provers, from the numbered rules of the spec. -/

open Sys2Proof Sys2Proof.Machine

/-! ## Encoding -/

/-- Words written out bit by bit from R54, R55 and the decoder's view of the opcode table decode to
the instruction they stand for, one of every row (sanity). That tags 1, 3, 6 and 7 decode to a verdict
of their own, which keeps register and operand, is the spec's own decision D6 (log 10). -/
def Obligations.WordsFromTheTableDecode : Prop :=
  decode [0b01000101, 0b10111111, 0b00000000] = .ok (.loadConst 0 765) ∧
  decode [0b11011101, 0b11111111, 0b00011111] = .ok (.loadConst 3 1023) ∧
  decode [0b11010100, 0b00000000] = .ok (.loadMem 2 3) ∧
  decode [0b11000100, 0b11111111] = .ok (.loadMem 0 1023) ∧
  decode [0b00111010, 0b10000000] = .ok (.storeMem 7 512) ∧
  decode [0b11111000, 0b00000010] = .ok (.mod 7 11) ∧
  decode [0b00000001, 0b00000000] = .ok (.illegalTag1 0 0) ∧
  decode [0b00000011, 0b00010000] = .ok (.illegalTag3 0 64) ∧
  decode [0b00000110, 0b00000000] = .ok (.illegalTag6 0 0) ∧
  decode [0b11111111, 0b11111111] = .ok (.illegalTag7 7 1023)

/-- Decode and encode agree: for every instruction, well formed or not, with every register and every
10-bit operand, decoding its bytes gives it back, whatever follows them, and the length decoded is the
number of bytes. Where no `Encode` of the spec produces the bytes, they are the model's own (log 25). -/
def Obligations.DecodeInvertsEncode : Prop :=
  ∀ (i : Instr) (rest : List Byte),
    decode (encode i ++ rest) = .ok i ∧
    ∃ f, decodeFields (encode i ++ rest) = .ok f ∧ f.reg = i.reg ∧ f.operand = i.operand ∧
      f.length = (encode i).length

/-- The well-formed instructions are exactly those whose bytes the codec's `Encode` produces, and on
them the two encoders give the same bytes. What well formed means is the model's choice (log 24). -/
def Obligations.WellFormedIsWhatEncodeProduces : Prop :=
  ∀ i : Instr,
    (i.wellFormed = true ↔ ∃ op reg operand, encodeTriple op reg operand = .ok (encode i)) ∧
    (∀ op, i.opcode = some op → i.wellFormed = true →
      encodeTriple op i.reg.toNat i.operand.toNat = .ok (encode i))

/-- R59: the fields `Decode` reads, by the rule's own formulas on the two bytes. -/
def Obligations.DecodeRecoversFields : Prop :=
  ∀ (S : List Byte) (a : Nat) (b0 b1 : Byte), S[a]? = some b0 → S[a + 1]? = some b1 →
    ∃ f, decodeAt S a = .ok f ∧
      f.tag.toNat = b0.toNat &&& 0x7 ∧
      f.reg.toNat = (b0.toNat >>> 3) &&& 0x7 ∧
      f.operand.toNat = (b1.toNat <<< 2) ||| ((b0.toNat >>> 6) &&& 0x3) ∧
      f.length = (if b0.toNat &&& 0x7 = 5 then 3 else 2) ∧
      f.reg.toNat ≤ 7 ∧ f.operand.toNat ≤ 1023

/-- R53: the tag alone, byte0 bits 2..0, decides the length. -/
def Obligations.TagAloneDecidesLength : Prop :=
  ∀ b0 : Byte, lengthOf b0 = if b0.toNat &&& 0x7 = 5 then 3 else 2

/-- R62, R63, R83: a tag selects no opcode exactly when it is 1, 3, 6 or 7, the opcode it selects is
the one with that tag, and the codec's `Encode` never writes an illegal tag. That `Decode` has a verdict
for an illegal tag is the spec's own decision D6. -/
def Obligations.TagsSelectOpcodes : Prop :=
  (∀ b0 b1 : Byte, (decodePair b0 b1).opcode = none ↔
    tagOf b0 = 1 ∨ tagOf b0 = 3 ∨ tagOf b0 = 6 ∨ tagOf b0 = 7) ∧
  (∀ (b0 b1 : Byte) (op : Opcode), (decodePair b0 b1).opcode = some op ↔ tagOf b0 = op.tag) ∧
  (∀ b0 b1 : Byte, (decodePair b0 b1).reg = regOf b0 ∧ (decodePair b0 b1).operand = operandOf b0 b1) ∧
  (∀ (op : Opcode) (reg operand : Int) (bytes : List Byte), encodeTriple op reg operand = .ok bytes →
    ∃ b0 b1 rest, bytes = b0 :: b1 :: rest ∧ (decodePair b0 b1).opcode = some op)

/-- R57: the 15-bit value of a LOAD_CONST constant, the three bytes it is packed into, and the rule's
example. -/
def Obligations.ConstantIsNormalised : Prop :=
  (∀ c : Int, -16384 ≤ c → c ≤ 16383 →
    (0 ≤ c → ((normaliseConst c).toNat : Int) = c ∧ (normaliseConst c).getLsbD 14 = false) ∧
    (c < 0 → ((normaliseConst c).toNat : Int) = 32768 + c ∧ 16384 ≤ (normaliseConst c).toNat ∧
      (normaliseConst c).getLsbD 14 = true) ∧
    (normaliseConst c).toNat ≤ 32767 ∧ ((normaliseConst c).toNat : Int) = c % 32768 ∧
    ∀ reg : Int, 0 ≤ reg → reg ≤ 7 → ∃ bytes, encodeTriple .loadConst reg c = .ok bytes ∧
      bytes.map (fun b => (b.toNat : Int)) =
        [64 * (c % 32768 % 4) + 8 * reg + 5, c % 32768 / 4 % 256, c % 32768 / 1024]) ∧
  encodeTriple .loadConst 3 (-1) = .ok [0xDD, 0xFF, 0x1F]

/-- R58: the two bytes of LOAD_MEM, STORE_MEM and MOD, with no normalisation: a negative operand is a
`RangeError`; and the rule's examples. -/
def Obligations.AddressOperandIsPacked : Prop :=
  (∀ (op : Opcode) (reg a : Int), op ≠ .loadConst → 0 ≤ reg → reg ≤ 7 →
    (0 ≤ a → a ≤ 7 → ∃ bytes, encodeTriple op reg a = .ok bytes ∧
      bytes.map (fun b => (b.toNat : Int)) =
        [64 * (a % 4) + 8 * reg + (op.tag.toNat : Int), a / 4]) ∧
    (a < 0 → encodeTriple op reg a = .error .operand)) ∧
  encodeTriple .loadMem 2 3 = .ok [0xD4, 0x00] ∧
  encodeTriple .storeMem 7 7 = .ok [0xFA, 0x01]

/-- R56: `Encode` rejects exactly the arguments out of range. That `reg` is reported first is the
spec's own decision D13. -/
def Obligations.EncodeRejectsOutOfRange : Prop :=
  ∀ (op : Opcode) (reg operand : Int),
    (reg < 0 ∨ 7 < reg → encodeTriple op reg operand = .error .reg) ∧
    (0 ≤ reg → reg ≤ 7 → op = .loadConst → (operand < -16384 ∨ 16383 < operand) →
      encodeTriple op reg operand = .error .operand) ∧
    (0 ≤ reg → reg ≤ 7 → op ≠ .loadConst → (operand < 0 ∨ 7 < operand) →
      encodeTriple op reg operand = .error .operand) ∧
    (0 ≤ reg → reg ≤ 7 → op = .loadConst → -16384 ≤ operand → operand ≤ 16383 →
      ∃ bytes, encodeTriple op reg operand = .ok bytes ∧ bytes.length = 3) ∧
    (0 ≤ reg → reg ≤ 7 → op ≠ .loadConst → 0 ≤ operand → operand ≤ 7 →
      ∃ bytes, encodeTriple op reg operand = .ok bytes ∧ bytes.length = 2)

/-- R64: the round trip of the codec within the recoverable range. -/
def Obligations.CodecRoundTripsInRange : Prop :=
  ∀ (op : Opcode) (reg operand : Int), 0 ≤ reg → reg ≤ 7 → 0 ≤ operand →
    (op = .loadConst → operand ≤ 1023) → (op ≠ .loadConst → operand ≤ 7) →
    ∃ bytes f, encodeTriple op reg operand = .ok bytes ∧ decodeAt bytes 0 = .ok f ∧
      f.tag = op.tag ∧ (f.reg.toNat : Int) = reg ∧ (f.operand.toNat : Int) = operand ∧
      f.length = bytes.length

/-- R65: outside the recoverable range a LOAD_CONST constant comes back truncated to 10 bits. -/
def Obligations.CodecTruncatesWideConstants : Prop :=
  ∀ reg c : Int, 0 ≤ reg → reg ≤ 7 → ((-16384 ≤ c ∧ c ≤ -1) ∨ (1024 ≤ c ∧ c ≤ 16383)) →
    ∃ bytes f, encodeTriple .loadConst reg c = .ok bytes ∧ decodeAt bytes 0 = .ok f ∧
      (f.operand.toNat : Int) = c % 1024 ∧ (f.operand.toNat : Int) ≠ c

/-- R66: `Encode` is injective on its valid domain; `Decode` after it is not: constants that agree
modulo 1024 decode alike. The spec marks the rule as derived. -/
def Obligations.EncodeIsInjective : Prop :=
  (∀ (op op' : Opcode) (reg reg' operand operand' : Int) (bytes : List Byte),
    encodeTriple op reg operand = .ok bytes → encodeTriple op' reg' operand' = .ok bytes →
    op = op' ∧ reg = reg' ∧ operand = operand') ∧
  (∀ (reg c c' : Int) (bytes bytes' : List Byte), c % 1024 = c' % 1024 →
    encodeTriple .loadConst reg c = .ok bytes → encodeTriple .loadConst reg c' = .ok bytes' →
    decode bytes = decode bytes')

/-! ## Registers, memory, stream and reset -/

/-- R13: a register reads the value last written to it, or 0 if none was since reset, every one of
the eight alike; no other register and none of the eight unreachable cells changes. -/
def Obligations.RegistersHoldWhatWasWritten : Prop :=
  (∀ (s : State) (r : RegNum) (v : Cell),
    (s.writeReg r v).readReg r = v ∧ OnlyRegChanged s (s.writeReg r v) r) ∧
  (∀ (S : List Byte) (w : Window) (r : RegNum), (State.start S w).readReg r = 0)

/-- R32: `MemRead` under the window, both bounds inclusive, at every address of the array. -/
def Obligations.MemReadChecksWindow : Prop :=
  ∀ (s : State) (a : Nat), a ≤ 1023 →
    ((a < s.window.low ∨ s.window.high < a) → s.memRead a = .error (.outOfBounds a)) ∧
    (s.window.low ≤ a → a ≤ s.window.high → s.memRead a = .ok (s.mem.read a))

/-- R33: `MemWrite` under the same check: the cell holds the value, no other cell and nothing else
changes; when the check fails nothing is written. -/
def Obligations.MemWriteChecksWindow : Prop :=
  ∀ (s : State) (a : Nat) (v : Cell), a ≤ 1023 →
    ((a < s.window.low ∨ s.window.high < a) → s.memWrite a v = .error (.outOfBounds a)) ∧
    (s.window.low ≤ a → a ≤ s.window.high →
      ∃ t, s.memWrite a v = .ok t ∧ t.mem.read a = v ∧ (∀ b, b ≠ a → t.mem.read b = s.mem.read b) ∧
        t = { s with mem := t.mem })

/-- An address above 1023 is out of bounds whatever the window: the spec's own decision D17. -/
def Obligations.AddressesAboveTheArrayAreOutOfBounds : Prop :=
  ∀ (s : State) (a : Nat) (v : Cell), 1023 < a →
    s.memRead a = .error (.outOfBounds a) ∧ s.memWrite a v = .error (.outOfBounds a)

/-- The canonical form makes equal memories equal data (the model's form of memory, log 3). -/
def Obligations.CanonicalMemoriesWithEqualCellsAreEqual : Prop :=
  ∀ m n : Memory, m.wf → n.wf → (∀ a, m.read a = n.read a) → m = n

/-- `Fetch` gives the stream's byte, or the missing offset as a fault, and the window plays no part.
The fault is the spec's own decision D7 (log 11), that the window is not applied to a fetch its own
decision D10 (log 13, unsafe). -/
def Obligations.FetchReadsTheStream : Prop :=
  ∀ (s : State) (a : Nat),
    (∀ b, s.stream[a]? = some b → s.fetchByte a = .ok b) ∧
    (s.stream.length ≤ a → s.fetchByte a = .error (.fetchOutOfStream a)) ∧
    (∀ w, State.fetchByte { s with window := w } a = s.fetchByte a)

/-- R146: the reset values, for every stream and window the caller supplies. -/
def Obligations.ResetValues : Prop :=
  ∀ (S : List Byte) (w : Window),
    (∀ i : Fin 16, (State.start S w).x[i] = 0) ∧ (∀ a, (State.start S w).mem.read a = 0) ∧
    (State.start S w).pc = w.low ∧ (State.start S w).status = .running ∧
    (State.start S w).trace = [] ∧ (State.start S w).stream = S ∧ (State.start S w).window = w

/-! ## The step -/

/-- A step runs the decoded instruction: past the halt test, where the bytes at `pc` decode, the step
is `exec` of that instruction, and nothing is added around it. -/
def Obligations.StepRunsDecodedInstruction : Prop :=
  ∀ (s : State) (i : Instr), s.status = .running → s.pc ≤ s.window.high →
    decode (s.stream.drop s.pc) = .ok i → step s = exec i s

/-- R81: the run ends where the halt test holds, with nothing but the status changed, and only there.
That the test is made before the first step too is the spec's own decision D5. -/
def Obligations.HaltTestEndsTheRun : Prop :=
  (∀ s : State, s.status = .running → (s.window.high < s.pc ∨ s.stream.length ≤ s.pc) →
    step s = .next { s with status := .halted }) ∧
  (∀ s t : State, s.status = .running → s.pc ≤ s.window.high → s.pc < s.stream.length →
    step s = .next t → t.status ≠ .halted) ∧
  (∀ (S : List Byte) (w : Window), (S = [] ∨ S.length ≤ w.low ∨ w.high < w.low) →
    step (State.start S w) = .next { State.start S w with status := .halted })

/-- R82, R131, R133: where byte1 is missing the step takes the fatal fault `FetchOutOfStream`, whatever
the tag of byte0. The fault is the spec's own decision D7. -/
def Obligations.MissingByteOneAborts : Prop :=
  ∀ s : State, s.status = .running → s.pc ≤ s.window.high → s.pc + 1 = s.stream.length →
    step s = .next { s with status := .aborted (.fetchOutOfStream (s.pc + 1)) }

/-- What a step from a terminal status answers. R22 says that none is taken: that the model stays in
the state from `Halted` and faults with the cause from `Aborted` is its own choice (logs 8 and 9). -/
def Obligations.TerminalStatusStays : Prop :=
  (∀ s : State, s.status = .halted → step s = .next s) ∧
  (∀ (s : State) (c : AbortCause), s.status = .aborted c → step s = .fault (.runAborted c))

/-- R91: only `pc` is tested against the window. A LOAD_CONST whose byte0 is at `pc <= high` executes
wherever its later bytes lie, its byte2 past the end of the stream too. That the window is not applied
to byte1 is the spec's own decision D10. -/
def Obligations.OnlyByteZeroIsBoundedByTheWindow : Prop :=
  ∀ (s : State) (b0 b1 : Byte), s.status = .running → s.pc ≤ s.window.high →
    s.stream[s.pc]? = some b0 → s.stream[s.pc + 1]? = some b1 → tagOf b0 = 5 →
    ∃ t, step s = .next t ∧ t.readReg (regOf b0) = (operandOf b0 b1).toNat ∧ t.pc = s.pc + 3 ∧
      t.status = .running ∧
      (s.pc + 2 = s.stream.length → step t = .next { t with status := .halted })

/-! ## The instructions -/

/-- LOAD_CONST: its register gets the decoded operand; every other register, every data cell, the
stream and the window are unchanged; one record, `pc` three further. It always succeeds. The form of the record
is the spec's own decision D9, as in the statements that follow. -/
def Obligations.LoadConstWritesItsOperand : Prop :=
  ∀ (r : RegNum) (k : Operand) (s : State), ∃ t, exec (.loadConst r k) s = .next t ∧
    t.readReg r = k.toNat ∧ OnlyRegChanged s t r ∧ (∀ b, t.mem.read b = s.mem.read b) ∧
    Completed s t { pc := s.pc, op := .loadConst, reg := r, operand := k,
                    outcome := .regWrite r k.toNat }

/-- LOAD_MEM inside the window: its register gets the cell at the address; every other register, every
data cell, the stream and the window are unchanged; one record, `pc` two further. -/
def Obligations.LoadMemCopiesTheCell : Prop :=
  ∀ (r : RegNum) (a : Operand) (s : State),
    s.window.low ≤ effectiveAddress a → effectiveAddress a ≤ s.window.high →
    ∃ t, exec (.loadMem r a) s = .next t ∧
      t.readReg r = s.mem.read (effectiveAddress a) ∧ OnlyRegChanged s t r ∧
      (∀ b, t.mem.read b = s.mem.read b) ∧
      Completed s t { pc := s.pc, op := .loadMem, reg := r, operand := a,
                      outcome := .regWrite r (s.mem.read (effectiveAddress a)) }

/-- STORE_MEM inside the window: the cell at the address gets the register's value; every other cell,
every register, the stream and the window are unchanged; one record, `pc` two further. -/
def Obligations.StoreMemCopiesTheRegister : Prop :=
  ∀ (r : RegNum) (a : Operand) (s : State),
    s.window.low ≤ effectiveAddress a → effectiveAddress a ≤ s.window.high →
    ∃ t, exec (.storeMem r a) s = .next t ∧
      t.mem.read (effectiveAddress a) = s.readReg r ∧
      (∀ b, b ≠ effectiveAddress a → t.mem.read b = s.mem.read b) ∧ t.x = s.x ∧
      Completed s t { pc := s.pc, op := .storeMem, reg := r, operand := a,
                      outcome := .memWrite (effectiveAddress a) (s.readReg r) }

/-- MOD with a divisor that is not 0: the register gets the remainder, said by what a remainder is
(R117), which is below the divisor and not above the dividend (R118); the frame is LOAD_MEM's. -/
def Obligations.ModWritesTheRemainder : Prop :=
  ∀ (r : RegNum) (a : Operand) (s : State),
    s.window.low ≤ effectiveAddress a → effectiveAddress a ≤ s.window.high →
    s.mem.read (effectiveAddress a) ≠ 0 →
    ∃ t, exec (.mod r a) s = .next t ∧
      t.readReg r < s.mem.read (effectiveAddress a) ∧ t.readReg r ≤ s.readReg r ∧
      (∃ q, s.readReg r = q * s.mem.read (effectiveAddress a) + t.readReg r) ∧
      OnlyRegChanged s t r ∧ (∀ b, t.mem.read b = s.mem.read b) ∧
      Completed s t { pc := s.pc, op := .mod, reg := r, operand := a,
                      outcome := .regWrite r (t.readReg r) }

/-- MOD with a zero divisor: it completes, no register and no cell changes, and its one record is the
division-by-zero record with the register and the address (R116). -/
def Obligations.ModByZeroIsRecorded : Prop :=
  ∀ (r : RegNum) (a : Operand) (s : State),
    s.window.low ≤ effectiveAddress a → effectiveAddress a ≤ s.window.high →
    s.mem.read (effectiveAddress a) = 0 →
    ∃ t, exec (.mod r a) s = .next t ∧ t.x = s.x ∧ (∀ b, t.mem.read b = s.mem.read b) ∧
      Completed s t { pc := s.pc, op := .mod, reg := r, operand := a,
                      outcome := .divByZero r (effectiveAddress a) }

/-- R126, R135: LOAD_MEM, STORE_MEM and MOD with an address outside the window take the fatal fault
`OutOfBounds` with that address, and nothing but the status changes. What the fault leaves and what it
carries are the spec's own decisions D8 and D21. -/
def Obligations.AccessOutsideTheWindowAborts : Prop :=
  ∀ (r : RegNum) (a : Operand) (s : State),
    (effectiveAddress a < s.window.low ∨ s.window.high < effectiveAddress a) →
    exec (.loadMem r a) s = .next { s with status := .aborted (.outOfBounds (effectiveAddress a)) } ∧
    exec (.storeMem r a) s = .next { s with status := .aborted (.outOfBounds (effectiveAddress a)) } ∧
    exec (.mod r a) s = .next { s with status := .aborted (.outOfBounds (effectiveAddress a)) }

/-- R83, R130: each illegal tag takes the fatal fault `IllegalOpcode` with its tag, and nothing but the
status changes. The fault is the spec's own decision D6. -/
def Obligations.IllegalTagsAbort : Prop :=
  ∀ (r : RegNum) (k : Operand) (s : State),
    exec (.illegalTag1 r k) s = .next { s with status := .aborted (.illegalOpcode 1) } ∧
    exec (.illegalTag3 r k) s = .next { s with status := .aborted (.illegalOpcode 3) } ∧
    exec (.illegalTag6 r k) s = .next { s with status := .aborted (.illegalOpcode 6) } ∧
    exec (.illegalTag7 r k) s = .next { s with status := .aborted (.illegalOpcode 7) }

/-- R119: repeating a MOD with the divisor unchanged is idempotent after the first time. The spec marks
the rule as derived. -/
def Obligations.ModIsIdempotent : Prop :=
  ∀ (r : RegNum) (a : Operand) (s t u : State),
    exec (.mod r a) s = .next t → exec (.mod r a) t = .next u → u.x = t.x

/-- R108: a load gives the value the last store to its address took from its register, and a load from
another address is not touched by the store. The spec marks the rule as derived. -/
def Obligations.LoadAfterStore : Prop :=
  ∀ (r q : RegNum) (a b : Operand) (s : State),
    s.window.low ≤ effectiveAddress a → effectiveAddress a ≤ s.window.high →
    s.window.low ≤ effectiveAddress b → effectiveAddress b ≤ s.window.high →
    ∃ t u, exec (.storeMem r a) s = .next t ∧ exec (.loadMem q b) t = .next u ∧
      u.readReg q = if b = a then s.readReg r else s.mem.read (effectiveAddress b)

/-- R102: executing the three bytes the Encoder gives for `LOAD_CONST r c` sets the register to
`c mod 1024`, and the rest of the stream comes next. The spec marks the rule as derived. -/
def Obligations.AssembledConstantIsLoadedModulo1024 : Prop :=
  ∀ (reg c : Int) (bytes rest : List Byte) (s : State),
    encodeTriple .loadConst reg c = .ok bytes → s.status = .running → s.pc ≤ s.window.high →
    s.stream.drop s.pc = bytes ++ rest →
    ∃ t, step s = .next t ∧ ((t.readReg (BitVec.ofInt 3 reg) : Nat) : Int) = c % 1024 ∧
      t.stream.drop t.pc = rest

/-- R68, R74: the bytes the codec gives for any triple run as that triple's instruction, with the
operand modulo 1024. -/
def Obligations.AssembledTripleRunsAsItsInstruction : Prop :=
  ∀ (op : Opcode) (reg operand : Int) (bytes rest : List Byte) (s : State),
    encodeTriple op reg operand = .ok bytes → s.status = .running → s.pc ≤ s.window.high →
    s.stream.drop s.pc = bytes ++ rest →
    ∃ i, i.opcode = some op ∧ (i.reg.toNat : Int) = reg ∧ (i.operand.toNat : Int) = operand % 1024 ∧
      step s = exec i s

/-! ## The whole machine -/

/-- R12, R11: the values invariant holds of every state a run starts from, the model's `State.reset`
(log 5) among them. -/
def Obligations.ValuesHoldAtStart : Prop :=
  (∀ (S : List Byte) (w : Window), (State.start S w).ValuesOk) ∧ State.reset.ValuesOk

/-- R12, R11, R118: every step keeps every cell in 0..1023, the unreachable cells at 0 and memory in
its canonical form. The spec marks the bound as derived; the 16 cells are its own decision D2, the
canonical form is the model's (log 3). -/
def Obligations.StepKeepsValues : Prop :=
  ∀ s t : State, s.ValuesOk → step s = .next t → t.ValuesOk

/-- The control invariant holds of every state a run starts from, the model's `State.reset` (log 5)
among them. -/
def Obligations.ControlHoldsAtStart : Prop :=
  (∀ (S : List Byte) (w : Window), (State.start S w).ControlOk) ∧ State.reset.ControlOk

/-- R16, R24, R92, R22: every step keeps the trace the straight line of the stream's instructions from
`window.low` to `pc`, `pc` in its range, and the status justified. The records and `Aborted` are
the spec's own decisions D9 and D8. -/
def Obligations.StepKeepsControl : Prop :=
  ∀ s t : State, s.ControlOk → step s = .next t → t.ControlOk

/-- The data invariant holds of every state a run starts from, the model's `State.reset` (log 5)
among them. -/
def Obligations.TraceExplainsStart : Prop :=
  (∀ (S : List Byte) (w : Window), (State.start S w).TraceExplains) ∧ State.reset.TraceExplains

/-- R13, R24, R43: at every step the trace alone accounts for the registers and the memory: a register
or a cell holds what the last record that wrote it says, 0 if none did, and every record's outcome is
the one its instruction gives in the state the earlier records left. The form of the record is the
spec's own decision D9. -/
def Obligations.StepKeepsTraceExplaining : Prop :=
  ∀ s t : State, s.TraceExplains → step s = .next t → t.TraceExplains

/-- R19, R20, R23, R46: no step writes the stream or the window, `pc` never decreases, and the trace
only grows at its end, by at most one record. -/
def Obligations.InputsNeverWrittenTraceOnlyGrows : Prop :=
  ∀ s t : State, step s = .next t →
    t.stream = s.stream ∧ t.window = s.window ∧ s.pc ≤ t.pc ∧
    ∃ new, t.trace = s.trace ++ new ∧ new.length ≤ 1

/-- R86: a step that completes, so that the run is still `Running`, appends a record and advances `pc` by
the length of the instruction its two bytes decode to: 3 for LOAD_CONST, 2 for the others. The advance
happens for a MOD with a zero divisor, which records a division by zero, as for any other. -/
def Obligations.CompletedStepAdvancesByLength : Prop :=
  (∀ s t : State, s.status = .running → step s = .next t → t.status = .running →
    ∃ b0 b1, s.stream[s.pc]? = some b0 ∧ s.stream[s.pc + 1]? = some b1 ∧
      (∃ e, t.trace = s.trace ++ [e]) ∧ t.pc = s.pc + lengthOf b0 ∧
      lengthOf b0 = (if (decodePair b0 b1).opcode = some .loadConst then 3 else 2)) ∧
  (∀ (r : RegNum) (a : Operand) (s : State), s.status = .running →
    s.window.low ≤ effectiveAddress a → effectiveAddress a ≤ s.window.high →
    s.mem.read (effectiveAddress a) = 0 →
    ∃ t e, exec (.mod r a) s = .next t ∧ t.trace = s.trace ++ [e] ∧ t.pc = s.pc + 2)

/-- R87, R24: the one record a completed step appends is that of the instruction its two bytes decode
to, with the `pc` before the advance and the outcome of R24's table. The form of the record is the spec's
own decision D9 (log 17), the remainder its decision D15 (log 16). -/
def Obligations.CompletedStepRecordsItsInstruction : Prop :=
  ∀ s t : State, s.status = .running → step s = .next t → t.status = .running →
    ∃ b0 b1 op, s.stream[s.pc]? = some b0 ∧ s.stream[s.pc + 1]? = some b1 ∧ tagOf b0 = op.tag ∧
      t.trace = s.trace ++ [{ pc := s.pc, op := op, reg := regOf b0, operand := operandOf b0 b1,
                              outcome := tableOutcome op (regOf b0) (operandOf b0 b1)
                                (s.readReg (regOf b0))
                                (s.mem.read (effectiveAddress (operandOf b0 b1))) }]

/-- R135: a step that takes a fatal fault changes nothing but the status. The spec marks the rule as
derived, from its own decision D8. -/
def Obligations.FaultsArePrecise : Prop :=
  ∀ (s t : State) (c : AbortCause), step s = .next t → t.status = .aborted c →
    s.status = .running ∧ t = { s with status := .aborted c }

/-- R133: the status after a step, decided in the order of the rule: the halt test, a missing byte1, an
illegal tag, an address outside the window, and otherwise the run goes on, a zero divisor included. The
order is the spec's own decision D13 (log 18), the outcome of an illegal tag its decision D6 (log 10)
and that of a missing byte1 its decision D7 (log 11); that a fatal fault is a next state with the status
`Aborted(cause)` is the model's choice (log 7). -/
def Obligations.FaultPriority : Prop :=
  ∀ s : State, s.status = .running → ∃ t, step s = .next t ∧
    ((s.window.high < s.pc ∨ s.stream.length ≤ s.pc) ∧ t.status = .halted ∨
     (s.pc ≤ s.window.high ∧ s.pc + 1 = s.stream.length ∧
       t.status = .aborted (.fetchOutOfStream (s.pc + 1))) ∨
     (s.pc ≤ s.window.high ∧ ∃ b0 b1, s.stream[s.pc]? = some b0 ∧ s.stream[s.pc + 1]? = some b1 ∧
       t.status =
        if tagOf b0 = 1 ∨ tagOf b0 = 3 ∨ tagOf b0 = 6 ∨ tagOf b0 = 7 then
          .aborted (.illegalOpcode (tagOf b0))
        else if tagOf b0 ≠ 5 ∧ ((operandOf b0 b1).toNat < s.window.low ∨
            s.window.high < (operandOf b0 b1).toNat) then
          .aborted (.outOfBounds (operandOf b0 b1).toNat)
        else .running))

/-- R84: the only state a step can change beside `pc`, trace and status is the register `x[r]` or the
cell `M[k]` of the instruction decoded at `pc`. LOAD_CONST, LOAD_MEM and MOD leave every cell and every
register but `x[r]`, STORE_MEM every register and every cell but `M[k]`, which is inside the window;
and where no instruction completes, so that the run is not `Running` after the step, nothing of either
changes. That a fatal fault leaves the status `Aborted(cause)` and no effect is the spec's own decision
D8 (log 7). -/
def Obligations.StepChangesAtMostOneCell : Prop :=
  ∀ s t : State, step s = .next t →
    (t.status ≠ .running ∧ t.x = s.x ∧ t.mem = s.mem) ∨
    (t.status = .running ∧ ∃ b0 b1, s.stream[s.pc]? = some b0 ∧ s.stream[s.pc + 1]? = some b1 ∧
      ((tagOf b0 = 5 ∨ tagOf b0 = 4 ∨ tagOf b0 = 0) ∧ t.mem = s.mem ∧
          OnlyRegChanged s t (regOf b0) ∨
       tagOf b0 = 2 ∧ t.x = s.x ∧
          s.window.low ≤ effectiveAddress (operandOf b0 b1) ∧
          effectiveAddress (operandOf b0 b1) ≤ s.window.high ∧
          ∀ a, a ≠ effectiveAddress (operandOf b0 b1) → t.mem.read a = s.mem.read a))

/-- R90, R141: every run ends. From any state, the bound of R90 and one step more for the halt test are
enough, and no more instructions complete than the bound says. The spec marks the bound as derived. -/
def Obligations.EveryRunEnds : Prop :=
  (∀ s : State, (s.runSteps (s.stepBound + 1)).status ≠ .running) ∧
  (∀ (s : State) (n : Nat), (s.runSteps n).trace.length ≤ s.trace.length + s.stepBound)

/-- R80, R94: the outputs of every run, for every stream and window, are those of a state in which the
status is terminal and all three invariants hold. What the host may read is the spec's own decision D19. -/
def Obligations.RunOutputsAreAccountedFor : Prop :=
  ∀ (S : List Byte) (w : Window), (run S w).status ≠ .running ∧
    ∃ s : State, run S w = s.result ∧ s.stream = S ∧ s.window = w ∧
      s.ValuesOk ∧ s.ControlOk ∧ s.TraceExplains

/-- R88, R90: nothing is stuck: every instruction answers a next state in every state, and a step from
`Running` always does. R141 classes OutOfBounds, IllegalOpcode and FetchOutOfStream as faults of the
run: that the instruction or step taking one answers a next state, with the status `Aborted(cause)`, and
not a fault, is the model's choice (log 7), and so is that `exec` answers whatever the status is
(log 27). -/
def Obligations.RunningMachineNeverStops : Prop :=
  (∀ (i : Instr) (s : State), ∃ t, exec i s = .next t) ∧
  (∀ s : State, s.status = .running → ∃ t, step s = .next t)

/-- R39, R60: a step reads the stream at `pc` and `pc + 1` only: changing any other byte, byte2 of a
LOAD_CONST among them, changes the next state by that byte alone. -/
def Obligations.StepReadsTwoBytesOfTheStream : Prop :=
  ∀ (s t : State) (j : Nat) (b : Byte), j ≠ s.pc → j ≠ s.pc + 1 → step s = .next t →
    step { s with stream := s.stream.set j b } = .next { t with stream := t.stream.set j b }

/-- R23, R138: no instruction reads the trace: a run cannot tell what was recorded before. -/
def Obligations.TraceIsNeverRead : Prop :=
  ∀ (s t : State) (old : List Record), step s = .next t →
    step { s with trace := old ++ s.trace } = .next { t with trace := old ++ t.trace }

/-- R11: no instruction reads or writes `x[8]` to `x[15]`, cells the spec keeps by its own decision
D2. -/
def Obligations.UpperRegistersAreUnreachable : Prop :=
  ∀ (s t : State) (i : Fin 16) (v : Cell), 8 ≤ i.val → step s = .next t →
    t.x[i] = s.x[i] ∧ step { s with x := s.x.set i v } = .next { t with x := t.x.set i v }

/-! ## The Encoder -/

/-- R68: a mnemonic is matched exactly, in upper case (the spec's own decision D12). -/
def Obligations.MnemonicsAreMatchedExactly : Prop :=
  (∀ (t : List Char) (op : Opcode), parseMnemonic t = some op ↔ t = mnemonicText op) ∧
  mnemonicText .loadConst = "LOAD_CONST".toList ∧ mnemonicText .loadMem = "LOAD_MEM".toList ∧
  mnemonicText .storeMem = "STORE_MEM".toList ∧ mnemonicText .mod = "MOD".toList

/-- R68: an integer token is an optional `-` and one or more decimal digits, and nothing else is (the
spec's own decision D12). -/
def Obligations.IntegerTokensAreDecimal : Prop :=
  ∀ (t : List Char) (v : Int), parseInteger t = some v ↔
    ∃ ds : List Nat, ds ≠ [] ∧ (∀ d ∈ ds, d < 10) ∧
      ((t = ds.map digitChar ∧ v = decimalValue ds) ∨
       (t = '-' :: ds.map digitChar ∧ v = -(decimalValue ds : Int)))

/-- R68: three tokens with one or more separators between them are split there (the spec's own decision
D12). -/
def Obligations.TokensSplitAtSeparators : Prop :=
  ∀ m a b sep sep' : List Char, m ≠ [] → a ≠ [] → b ≠ [] → sep ≠ [] → sep' ≠ [] →
    (∀ c ∈ m ++ a ++ b, isSeparator c = false) → (∀ c ∈ sep ++ sep', isSeparator c = true) →
    splitTokens (m ++ sep ++ a ++ sep' ++ b) = [m, a, b]

/-- R69, R70: the reason a line is rejected with, in the order of R70, and what an accepted line gives.
The order is the spec's own decision D13, the exact token count D14. -/
def Obligations.LineReasonsInOrder : Prop :=
  ∀ (line : Line) (m : List Char) (operands : List (List Char)), splitTokens line = m :: operands →
    (parseMnemonic m = none → encodeLine line = .error .unknownMnemonic) ∧
    (∀ op, parseMnemonic m = some op → operands.length ≠ 2 → encodeLine line = .error .tokenCount) ∧
    (∀ op a b, parseMnemonic m = some op → operands = [a, b] →
      (parseInteger a = none ∨ parseInteger b = none) → encodeLine line = .error .notInteger) ∧
    (∀ op a b reg operand, parseMnemonic m = some op → operands = [a, b] →
      parseInteger a = some reg → parseInteger b = some operand →
      (∀ e, encodeTriple op reg operand = .error e → encodeLine line = .error .range) ∧
      (∀ bytes, encodeTriple op reg operand = .ok bytes →
        encodeLine line = .ok (op, reg, operand, bytes)))

/-- R71, R72: the bytes are the concatenation of the lines' bytes in source order, a rejected line
contributes none and does not stop the others, and there is one log record per line, in the form of the spec's own decision
D20. -/
def Obligations.RejectedLinesAreSkipped : Prop :=
  (∀ before after : List Line,
    (assemble (before ++ after)).bytes = (assemble before).bytes ++ (assemble after).bytes ∧
    (assemble (before ++ after)).log = (assemble before).log ++ (assemble after).log) ∧
  (∀ (before after : List Line) (line : Line) (e : ValidationError), encodeLine line = .error e →
    (assemble (before ++ line :: after)).bytes = (assemble (before ++ after)).bytes ∧
    (assemble [line]).log = [.failed line e]) ∧
  (∀ (line : Line) (op : Opcode) (reg operand : Int) (bytes : List Byte),
    encodeLine line = .ok (op, reg, operand, bytes) →
    (assemble [line]).bytes = bytes ∧ (assemble [line]).log = [.encoded op reg operand bytes]) ∧
  (∀ lines : List Line, (assemble lines).log.length = lines.length)

/-- R130, R131: a stream assembled from text, run from offset 0 or from any instruction boundary, stays
on instruction boundaries and never takes `IllegalOpcode` nor `FetchOutOfStream`, the two faults of
the spec's own decisions D6 and D7. -/
def Obligations.AssembledStreamsStayOnBoundaries : Prop :=
  (∀ (lines : List Line) (high : Nat),
    (State.start (assemble lines).bytes ⟨0, high⟩).OnBoundary) ∧
  (∀ s t : State, s.status = .running → s.OnBoundary → step s = .next t →
    t.OnBoundary ∧ (t.status = .running ∨ t.status = .halted ∨
      ∃ a, t.status = .aborted (.outOfBounds a)))
end

