-- ==== Sys2Proof/Laws/Codec.lean ====
section
/-! SUPPORT. The bit fields as numbers, and byte0 and byte1 read back as they were packed. -/

namespace Sys2Proof

theorem toNat_packByte0 (t : Tag) (r : RegNum) (l : BitVec 2) :
    (packByte0 t r l).toNat = l.toNat * 64 + r.toNat * 8 + t.toNat := by
  simp only [packByte0]
  rw [BitVec.toNat_append (x := l ++ r) (y := t), BitVec.toNat_append,
    ← Nat.shiftLeft_add_eq_or_of_lt (by omega), ← Nat.shiftLeft_add_eq_or_of_lt (by omega)]
  omega

theorem toNat_tagOf (b0 : Byte) : (tagOf b0).toNat = b0.toNat % 8 := by
  simp [tagOf, BitVec.extractLsb'_toNat]

theorem toNat_regOf (b0 : Byte) : (regOf b0).toNat = b0.toNat / 8 % 8 := by
  simp [regOf, BitVec.extractLsb'_toNat, Nat.shiftRight_eq_div_pow]

theorem toNat_operandOf (b0 b1 : Byte) :
    (operandOf b0 b1).toNat = b1.toNat * 4 + b0.toNat / 64 := by
  simp only [operandOf]
  rw [BitVec.toNat_append (x := b1), BitVec.extractLsb'_toNat,
    ← Nat.shiftLeft_add_eq_or_of_lt (Nat.mod_lt _ (by decide))]
  omega

theorem tagOf_packByte0 (t : Tag) (r : RegNum) (l : BitVec 2) : tagOf (packByte0 t r l) = t := by
  apply BitVec.eq_of_toNat_eq
  rw [toNat_tagOf, toNat_packByte0]
  omega

theorem regOf_packByte0 (t : Tag) (r : RegNum) (l : BitVec 2) : regOf (packByte0 t r l) = r := by
  apply BitVec.eq_of_toNat_eq
  rw [toNat_regOf, toNat_packByte0]
  omega

/-- The decoder puts together the two pieces of a 10-bit operand. -/
theorem operandOf_packPair (t : Tag) (r : RegNum) (k : Operand) :
    operandOf (packByte0 t r (k.extractLsb' 0 2)) (k.extractLsb' 2 8) = k := by
  apply BitVec.eq_of_toNat_eq
  rw [toNat_operandOf, toNat_packByte0]
  simp only [BitVec.extractLsb'_toNat]
  omega

end Sys2Proof
end

