-- ==== Sys2Proof/Laws/Memory.lean ====
section
/-! SUPPORT. Data memory: what a read gives after a write, and every operation keeps the canonical
form. -/

namespace Sys2Proof.Machine

theorem read_erase (m : Memory) (a b : Nat) :
    (Memory.erase m a).read b = if b = a then Config.unwrittenCell else m.read b := by
  induction m with
  | nil => simp [Memory.erase, Memory.read]
  | cons p m ih =>
    simp only [Memory.erase] at ih
    by_cases hp : p.1 = a <;> simp only [Memory.erase, List.filter_cons, Memory.read, hp] <;>
      split_ifs <;> simp_all [Memory.read]

theorem read_insert (m : Memory) (a b : Nat) (v : Cell) (h : ∀ p ∈ m, p.1 ≠ a) :
    (Memory.insert m a v).read b = if b = a then v else m.read b := by
  induction m with
  | nil => simp only [Memory.insert, Memory.read, eq_comm]
  | cons p m ih =>
    have hp := h p (by simp)
    have ih := ih fun q hq => h q (by simp [hq])
    simp only [Memory.insert]
    split_ifs <;> simp only [Memory.read, ih] <;> split_ifs <;> first | rfl | omega

theorem erase_avoids (m : Memory) (a : Nat) : ∀ p ∈ Memory.erase m a, p.1 ≠ a := by
  intro p hp
  simpa [Memory.erase] using (List.mem_filter.mp hp).2

/-- A read after a write: the value written at its address, every other address as before. It asks
nothing of the list, so it holds in states no run reaches. -/
theorem read_write (m : Memory) (a b : Nat) (v : Cell) :
    (m.write a v).read b = if b = a then v else m.read b := by
  unfold Memory.write
  split_ifs with hv hb hb
  · simp [read_erase, hb, hv]
  · simp [read_erase, hb]
  · simp [read_insert _ _ _ _ (erase_avoids m a), hb]
  · simp [read_insert _ _ _ _ (erase_avoids m a), read_erase, hb]

theorem mem_insert (m : Memory) (a : Nat) (v : Cell) (p : Nat × Cell) :
    p ∈ Memory.insert m a v ↔ p = (a, v) ∨ p ∈ m := by
  induction m with
  | nil => simp [Memory.insert]
  | cons q m ih =>
    simp only [Memory.insert]
    split_ifs <;> simp [ih, or_left_comm]

theorem erase_keeps_wf (m : Memory) (a : Nat) (h : m.wf) : (Memory.erase m a).wf :=
  ⟨h.1.filter _, fun p hp => h.2 p (List.mem_filter.mp hp).1⟩

theorem insert_pairwise (m : Memory) (a : Nat) (v : Cell) (hm : m.Pairwise fun p q => p.1 < q.1)
    (h : ∀ p ∈ m, p.1 ≠ a) : (Memory.insert m a v).Pairwise fun p q => p.1 < q.1 := by
  induction m with
  | nil => simp [Memory.insert]
  | cons q m ih =>
    obtain ⟨hq, hm⟩ := List.pairwise_cons.mp hm
    have hqa := h q (by simp)
    simp only [Memory.insert]
    split_ifs with hlt
    · refine List.pairwise_cons.mpr ⟨fun p hp => ?_, List.pairwise_cons.mpr ⟨hq, hm⟩⟩
      rcases List.mem_cons.mp hp with rfl | hp
      · exact hlt
      · exact lt_trans hlt (hq p hp)
    · refine List.pairwise_cons.mpr ⟨fun p hp => ?_, ih hm fun p hp => h p (by simp [hp])⟩
      rcases (mem_insert m a v p).mp hp with rfl | hp
      · exact lt_of_le_of_ne (not_lt.mp hlt) hqa
      · exact hq p hp

/-- Every write keeps the canonical form. -/
theorem write_keeps_wf (m : Memory) (a : Nat) (v : Cell) (h : m.wf) (ha : a < Config.memCells) :
    (m.write a v).wf := by
  unfold Memory.write
  split_ifs with hv
  · exact erase_keeps_wf m a h
  · have he := erase_keeps_wf m a h
    refine ⟨insert_pairwise _ a v he.1 (erase_avoids m a), fun p hp => ?_⟩
    rcases (mem_insert _ a v p).mp hp with rfl | hp
    · exact ⟨ha, hv⟩
    · exact he.2 p hp

/-- The memory of the state after reset has the canonical form. -/
theorem reset_mem_wf : State.reset.mem.wf := by decide

end Sys2Proof.Machine
end

