-- ==== Sys2Proof/Laws/State.lean ====
section
/-! SUPPORT. One lemma per field per update of the state, so that no later proof unfolds a record
update. -/

namespace Sys2Proof.Machine

/-! ## Start -/
@[simp] theorem start_x (S : List Byte) (w : Window) : (State.start S w).x = Vector.replicate 16 0 := rfl
@[simp] theorem start_pc (S : List Byte) (w : Window) : (State.start S w).pc = w.low := rfl
@[simp] theorem start_mem (S : List Byte) (w : Window) : (State.start S w).mem = [] := rfl
@[simp] theorem start_status (S : List Byte) (w : Window) : (State.start S w).status = .running := rfl
@[simp] theorem start_trace (S : List Byte) (w : Window) : (State.start S w).trace = [] := rfl
@[simp] theorem start_stream (S : List Byte) (w : Window) : (State.start S w).stream = S := rfl
@[simp] theorem start_window (S : List Byte) (w : Window) : (State.start S w).window = w := rfl

variable (s : State)

/-! ## Writing a register -/
@[simp] theorem writeReg_x (r : RegNum) (v : Cell) : (s.writeReg r v).x = s.x.set (regIndex r) v := rfl
@[simp] theorem writeReg_pc (r : RegNum) (v : Cell) : (s.writeReg r v).pc = s.pc := rfl
@[simp] theorem writeReg_mem (r : RegNum) (v : Cell) : (s.writeReg r v).mem = s.mem := rfl
@[simp] theorem writeReg_status (r : RegNum) (v : Cell) : (s.writeReg r v).status = s.status := rfl
@[simp] theorem writeReg_trace (r : RegNum) (v : Cell) : (s.writeReg r v).trace = s.trace := rfl
@[simp] theorem writeReg_stream (r : RegNum) (v : Cell) : (s.writeReg r v).stream = s.stream := rfl
@[simp] theorem writeReg_window (r : RegNum) (v : Cell) : (s.writeReg r v).window = s.window := rfl

/-! ## Taking a fatal fault -/
@[simp] theorem abort_x (c : AbortCause) : (s.abort c).x = s.x := rfl
@[simp] theorem abort_pc (c : AbortCause) : (s.abort c).pc = s.pc := rfl
@[simp] theorem abort_mem (c : AbortCause) : (s.abort c).mem = s.mem := rfl
@[simp] theorem abort_status (c : AbortCause) : (s.abort c).status = .aborted c := rfl
@[simp] theorem abort_trace (c : AbortCause) : (s.abort c).trace = s.trace := rfl
@[simp] theorem abort_stream (c : AbortCause) : (s.abort c).stream = s.stream := rfl
@[simp] theorem abort_window (c : AbortCause) : (s.abort c).window = s.window := rfl

/-! ## The normal end -/
@[simp] theorem halt_x : s.halt.x = s.x := rfl
@[simp] theorem halt_pc : s.halt.pc = s.pc := rfl
@[simp] theorem halt_mem : s.halt.mem = s.mem := rfl
@[simp] theorem halt_status : s.halt.status = .halted := rfl
@[simp] theorem halt_trace : s.halt.trace = s.trace := rfl
@[simp] theorem halt_stream : s.halt.stream = s.stream := rfl
@[simp] theorem halt_window : s.halt.window = s.window := rfl

/-! ## Completing an instruction -/
section
variable (op : Opcode) (r : RegNum) (k : Operand) (out : Effect)
@[simp] theorem retire_x : (s.retire op r k out).x = s.x := rfl
@[simp] theorem retire_pc : (s.retire op r k out).pc = s.pc + op.length := rfl
@[simp] theorem retire_mem : (s.retire op r k out).mem = s.mem := rfl
@[simp] theorem retire_status : (s.retire op r k out).status = s.status := rfl
@[simp] theorem retire_trace : (s.retire op r k out).trace =
    s.trace ++ [{ pc := s.pc, op := op, reg := r, operand := k, outcome := out }] := rfl
@[simp] theorem retire_stream : (s.retire op r k out).stream = s.stream := rfl
@[simp] theorem retire_window : (s.retire op r k out).window = s.window := rfl
end

/-! ## Placing an instruction for the next fetch -/
@[simp] theorem placeInstruction_x (bs : List Byte) : (s.placeInstruction bs).x = s.x := rfl
@[simp] theorem placeInstruction_pc (bs : List Byte) : (s.placeInstruction bs).pc = s.pc := rfl
@[simp] theorem placeInstruction_mem (bs : List Byte) : (s.placeInstruction bs).mem = s.mem := rfl
@[simp] theorem placeInstruction_status (bs : List Byte) :
    (s.placeInstruction bs).status = .running := rfl
@[simp] theorem placeInstruction_trace (bs : List Byte) : (s.placeInstruction bs).trace = s.trace := rfl
@[simp] theorem placeInstruction_stream (bs : List Byte) :
    (s.placeInstruction bs).stream = placeBytes s.stream s.pc bs := rfl
@[simp] theorem placeInstruction_window (bs : List Byte) : (s.placeInstruction bs).window =
    { s.window with high := max s.window.high s.pc } := rfl

/-! ## The length of each opcode -/
@[simp] theorem length_loadConst : Opcode.loadConst.length = 3 := rfl
@[simp] theorem length_loadMem : Opcode.loadMem.length = 2 := rfl
@[simp] theorem length_storeMem : Opcode.storeMem.length = 2 := rfl
@[simp] theorem length_mod : Opcode.mod.length = 2 := rfl

end Sys2Proof.Machine
end

