-- ==== Sys2Proof/Laws/Ops.lean ====
section
/-! SUPPORT. For each shared operation, one lemma that says once everything it can do. -/

namespace Sys2Proof.Machine

theorem regIndex_injective (q r : RegNum) : regIndex q = regIndex r ↔ q = r := by
  constructor
  · intro h
    exact BitVec.eq_of_toNat_eq (by simpa [regIndex] using h)
  · rintro rfl
    rfl

theorem readReg_writeReg (s : State) (q r : RegNum) (v : Cell) :
    (s.writeReg r v).readReg q = if q = r then v else s.readReg q := by
  simp only [State.readReg, writeReg_x, Fin.getElem_fin, Vector.getElem_set]
  by_cases h : q = r
  · simp [h]
  · have : regIndex r ≠ regIndex q := fun e => h ((regIndex_injective q r).mp e.symm)
    simp [h, Fin.val_inj, this]

theorem readReg_congr {s t : State} (h : t.x = s.x) (r : RegNum) : t.readReg r = s.readReg r := by
  simp [State.readReg, h]

/-- An address passes the accessors exactly when it is inside the window and the array. -/
theorem canAccess_iff (s : State) (a : Nat) :
    s.canAccess a = true ↔ s.window.low ≤ a ∧ a ≤ s.window.high ∧ a < Config.memCells := by
  simp [State.canAccess, and_assoc]

/-- A decoded operand is always inside the array, so only the window decides (R31, R35). -/
theorem canAccess_operand (s : State) (a : Operand) :
    s.canAccess (effectiveAddress a) = true ↔
      s.window.low ≤ effectiveAddress a ∧ effectiveAddress a ≤ s.window.high := by
  have : effectiveAddress a < Config.memCells := a.isLt
  simp [canAccess_iff, this]

theorem memRead_cases (s : State) (a : Nat) :
    (s.canAccess a = true ∧ s.memRead a = .ok (s.mem.read a)) ∨
      (s.canAccess a = false ∧ s.memRead a = .error (.outOfBounds a)) := by
  cases h : s.canAccess a <;> simp [State.memRead, h]

theorem memWrite_cases (s : State) (a : Nat) (v : Cell) :
    (s.canAccess a = true ∧ s.memWrite a v = .ok { s with mem := s.mem.write a v }) ∨
      (s.canAccess a = false ∧ s.memWrite a v = .error (.outOfBounds a)) := by
  cases h : s.canAccess a <;> simp [State.memWrite, h]

/-- What going on after an access can end in: the continuation's state, or the access's fault. -/
theorem orAbort_cases {α : Type} (s : State) (access : Except AbortCause α) (go : α → State) :
    (∃ v, access = .ok v ∧ s.orAbort access go = .next (go v)) ∨
      (∃ c, access = .error c ∧ s.orAbort access go = .next (s.abort c)) := by
  cases access with
  | ok v => exact .inl ⟨v, rfl, rfl⟩
  | error c => exact .inr ⟨c, rfl, rfl⟩

theorem fetchByte_some (s : State) (a : Nat) (b : Byte) (h : s.stream[a]? = some b) :
    s.fetchByte a = .ok b := by
  simp [State.fetchByte, h]

theorem fetchByte_none (s : State) (a : Nat) (h : s.stream[a]? = none) :
    s.fetchByte a = .error (.fetchOutOfStream a) := by
  simp [State.fetchByte, h]

/-- Past the halt test, the fetch gives both bytes or finds byte1 missing (R82). -/
theorem fetchPair_cases (s : State) (h : s.haltTest = false) :
    (∃ b0 b1, s.stream[s.pc]? = some b0 ∧ s.stream[s.pc + 1]? = some b1 ∧
        s.fetchPair = .ok (b0, b1)) ∨
      (s.pc + 1 = s.stream.length ∧ s.fetchPair = .error (.fetchOutOfStream (s.pc + 1))) := by
  have hpc : s.pc < s.stream.length := by simp [State.haltTest] at h; exact h.2
  have h0 : s.stream[s.pc]? = some s.stream[s.pc] := by simp [hpc]
  rcases h1 : s.stream[s.pc + 1]? with _ | b1
  · right
    refine ⟨?_, by simp [State.fetchPair, fetchByte_some s _ _ h0, fetchByte_none s _ h1]⟩
    have := List.getElem?_eq_none_iff.mp h1
    omega
  · left
    exact ⟨_, b1, h0, rfl, by simp [State.fetchPair, fetchByte_some s _ _ h0, fetchByte_some s _ _ h1]⟩

end Sys2Proof.Machine
end

