-- ==== Sys2Proof/Laws/PerInstr.lean ====
section
/-! SUPPORT. Per-instruction families: `EncodedLength`, that the length of an instruction's bytes is
the one the length rule R53 reads from their first byte. -/

namespace Sys2Proof.Laws.EncodedLength

/-- The bytes of the instruction are as many as the length rule says from byte0 (R53). -/
def Statement (i : Instr) : Prop :=
  ∃ b0 rest, encode i = b0 :: rest ∧ (encode i).length = lengthOf b0

theorem loadConst (r : RegNum) (k : Operand) : Statement (.loadConst r k) :=
  ⟨_, _, rfl, by simp [encode, packPair, lengthOf, tagOf_packByte0, lengthOfTag]⟩

theorem loadMem (r : RegNum) (a : Operand) : Statement (.loadMem r a) :=
  ⟨_, _, rfl, by simp [encode, packPair, lengthOf, tagOf_packByte0, lengthOfTag]⟩

theorem storeMem (r : RegNum) (a : Operand) : Statement (.storeMem r a) :=
  ⟨_, _, rfl, by simp [encode, packPair, lengthOf, tagOf_packByte0, lengthOfTag]⟩

theorem mod (r : RegNum) (a : Operand) : Statement (.mod r a) :=
  ⟨_, _, rfl, by simp [encode, packPair, lengthOf, tagOf_packByte0, lengthOfTag]⟩

theorem illegalTag1 (r : RegNum) (k : Operand) : Statement (.illegalTag1 r k) :=
  ⟨_, _, rfl, by simp [encode, packPair, lengthOf, tagOf_packByte0, lengthOfTag]⟩

theorem illegalTag3 (r : RegNum) (k : Operand) : Statement (.illegalTag3 r k) :=
  ⟨_, _, rfl, by simp [encode, packPair, lengthOf, tagOf_packByte0, lengthOfTag]⟩

theorem illegalTag6 (r : RegNum) (k : Operand) : Statement (.illegalTag6 r k) :=
  ⟨_, _, rfl, by simp [encode, packPair, lengthOf, tagOf_packByte0, lengthOfTag]⟩

theorem illegalTag7 (r : RegNum) (k : Operand) : Statement (.illegalTag7 r k) :=
  ⟨_, _, rfl, by simp [encode, packPair, lengthOf, tagOf_packByte0, lengthOfTag]⟩

end Sys2Proof.Laws.EncodedLength
end

