-- ==== Sys2Proof/Laws/Step.lean ====
section
/-! SUPPORT. What one step can do, said once: every invariant of the machine follows from the
inversion lemmas here. -/

namespace Sys2Proof.Machine

/-- Everything LOAD_MEM can do. -/
theorem execLoadMem_cases (r : RegNum) (a : Operand) (s : State) :
    (s.canAccess (effectiveAddress a) = true ∧ execLoadMem r a s =
        .next (s.retireRegWrite .loadMem r a (s.mem.read (effectiveAddress a)))) ∨
      (s.canAccess (effectiveAddress a) = false ∧
        execLoadMem r a s = .next (s.abort (.outOfBounds (effectiveAddress a)))) := by
  rcases memRead_cases s (effectiveAddress a) with ⟨h, e⟩ | ⟨h, e⟩ <;>
    simp [execLoadMem, State.orAbort, h, e]

/-- Everything STORE_MEM can do. -/
theorem execStoreMem_cases (r : RegNum) (a : Operand) (s : State) :
    (s.canAccess (effectiveAddress a) = true ∧ execStoreMem r a s =
        .next (State.retire { s with mem := s.mem.write (effectiveAddress a) (s.readReg r) }
          .storeMem r a (.memWrite (effectiveAddress a) (s.readReg r)))) ∨
      (s.canAccess (effectiveAddress a) = false ∧
        execStoreMem r a s = .next (s.abort (.outOfBounds (effectiveAddress a)))) := by
  rcases memWrite_cases s (effectiveAddress a) (s.readReg r) with ⟨h, e⟩ | ⟨h, e⟩ <;>
    simp [execStoreMem, State.orAbort, h, e]

/-- Everything MOD can do. -/
theorem execMod_cases (r : RegNum) (a : Operand) (s : State) :
    (s.canAccess (effectiveAddress a) = true ∧ s.mem.read (effectiveAddress a) = 0 ∧
        execMod r a s = .next (s.retire .mod r a (.divByZero r (effectiveAddress a)))) ∨
      (s.canAccess (effectiveAddress a) = true ∧ s.mem.read (effectiveAddress a) ≠ 0 ∧
        execMod r a s = .next (s.retireRegWrite .mod r a
          (remainder (s.readReg r) (s.mem.read (effectiveAddress a))))) ∨
      (s.canAccess (effectiveAddress a) = false ∧
        execMod r a s = .next (s.abort (.outOfBounds (effectiveAddress a)))) := by
  rcases memRead_cases s (effectiveAddress a) with ⟨h, e⟩ | ⟨h, e⟩
  · by_cases h0 : s.mem.read (effectiveAddress a) = 0 <;>
      simp [execMod, State.orAbort, State.retireMod, h, e, h0]
  · simp [execMod, State.orAbort, h, e]

/-- Everything a step from `Running` can do: end the run, find byte1 missing, or run the instruction
its two bytes stand for (R88). -/
theorem step_running_cases (s : State) (h : s.status = .running) :
    (s.haltTest = true ∧ step s = .next s.halt) ∨
      (s.haltTest = false ∧ s.pc + 1 = s.stream.length ∧
        step s = .next (s.abort (.fetchOutOfStream (s.pc + 1)))) ∨
      (s.haltTest = false ∧ ∃ b0 b1, s.stream[s.pc]? = some b0 ∧ s.stream[s.pc + 1]? = some b1 ∧
        step s = exec (decodePair b0 b1) s) := by
  rcases ht : s.haltTest with _ | _
  · rcases fetchPair_cases s ht with ⟨b0, b1, h0, h1, e⟩ | ⟨hl, e⟩
    · exact .inr (.inr ⟨rfl, b0, b1, h0, h1, by simp [step, State.fetchPhase, h, ht, e]⟩)
    · exact .inr (.inl ⟨rfl, hl, by simp [step, State.fetchPhase, h, ht, e]⟩)
  · exact .inl ⟨rfl, by simp [step, State.fetchPhase, h, ht]⟩

theorem step_halted (s : State) (h : s.status = .halted) : step s = .next s := by
  simp [step, State.fetchPhase, h]

theorem step_aborted (s : State) (c : AbortCause) (h : s.status = .aborted c) :
    step s = .fault (.runAborted c) := by
  simp [step, State.fetchPhase, h]

/-- Every way a step can answer a next state, whatever the status: it stays where the run has ended,
ends the run, finds byte1 missing, or runs the instruction its two bytes stand for. -/
theorem step_next_cases {s t : State} (h : step s = .next t) :
    (s.status = .halted ∧ t = s) ∨
      (s.status = .running ∧ s.haltTest = true ∧ t = s.halt) ∨
      (s.status = .running ∧ s.haltTest = false ∧ s.pc + 1 = s.stream.length ∧
        t = s.abort (.fetchOutOfStream (s.pc + 1))) ∨
      (s.status = .running ∧ s.haltTest = false ∧ ∃ b0 b1, s.stream[s.pc]? = some b0 ∧
        s.stream[s.pc + 1]? = some b1 ∧ exec (decodePair b0 b1) s = .next t) := by
  cases hs : s.status with
  | running =>
    rcases step_running_cases s hs with ⟨ht, e⟩ | ⟨ht, hl, e⟩ | ⟨ht, b0, b1, h0, h1, e⟩ <;>
      rw [h] at e
    · exact .inr (.inl ⟨rfl, ht, Host.Outcome.next.inj e⟩)
    · exact .inr (.inr (.inl ⟨rfl, ht, hl, Host.Outcome.next.inj e⟩))
    · exact .inr (.inr (.inr ⟨rfl, ht, b0, b1, h0, h1, e.symm⟩))
  | halted =>
    rw [step_halted s hs] at h
    exact .inl ⟨rfl, (Host.Outcome.next.inj h).symm⟩
  | aborted c =>
    rw [step_aborted s c hs] at h
    cases h

end Sys2Proof.Machine
end

