-- ==== Sys2Proof/Tests/Slice0.lean ====
section
/-! SUPPORT. Tests of one step or one word each, with the expected result taken from the spec's words,
fixtures and vectors (95_test_vectors.md, cited by number), and for every obligation with hypotheses a
concrete state and operands that meet them all, at the boundaries of its clauses. -/

namespace Sys2Proof.Tests

open Sys2Proof.Machine

/-- A running state on a stream and a window, with the data cells given. -/
def onStream (bytes : List Byte) (low high : Nat) (mem : Memory := []) : State :=
  { State.start bytes ⟨low, high⟩ with mem := mem }

/-- The same state with one register set. -/
def withReg (s : State) (r : RegNum) (v : Cell) : State := s.writeReg r v

/-- Whether an outcome is a next state with a property. -/
def nextHas (o : Host.Outcome State Fault Refusal) (p : State → Bool) : Bool :=
  match o with
  | .next t => p t
  | .fault _ => false
  | .refused _ => false

/-! ## Decoding words written out from the encoding tables (R54, R55, opcode table) -/

theorem test_decode_LOAD_CONST : decode [0b01000101, 0b10111111, 0b00000000] = .ok (.loadConst 0 765) := by
  decide
theorem test_decode_LOAD_CONST_ignores_byte2 :
    decode [0b01000101, 0b10111111, 0b11111111] = .ok (.loadConst 0 765) := by decide
theorem test_decode_LOAD_MEM : decode [0b11010100, 0b00000000] = .ok (.loadMem 2 3) := by decide
theorem test_decode_LOAD_MEM_wide : decode [0b11000100, 0b11111111] = .ok (.loadMem 0 1023) := by decide
theorem test_decode_STORE_MEM : decode [0b11111010, 0b00000001] = .ok (.storeMem 7 7) := by decide
theorem test_decode_STORE_MEM_wide : decode [0b00111010, 0b10000000] = .ok (.storeMem 7 512) := by decide
theorem test_decode_MOD : decode [0b00101000, 0b00000001] = .ok (.mod 5 4) := by decide
theorem test_decode_MOD_wide : decode [0b11111000, 0b00000010] = .ok (.mod 7 11) := by decide
theorem test_decode_ILLEGAL_1 : decode [0b00000001, 0b00000000] = .ok (.illegalTag1 0 0) := by decide
theorem test_decode_ILLEGAL_3 : decode [0b00000011, 0b00010000] = .ok (.illegalTag3 0 64) := by decide
theorem test_decode_ILLEGAL_6 : decode [0b00000110, 0b00000000] = .ok (.illegalTag6 0 0) := by decide
theorem test_decode_ILLEGAL_7 : decode [0b11111111, 0b11111111] = .ok (.illegalTag7 7 1023) := by decide
theorem test_decode_missing_bytes :
    decode [] = .error .missingByte0 ∧ decode [0x45] = .error .missingByte1 := by decide
theorem test_table_words :
    decodeTableWord 24 0x00BF45 = some (.loadConst 0 765) ∧ decodeTableWord 16 0x00D4 = some (.loadMem 2 3) ∧
    decodeTableWord 8 0x02 = some (.storeMem 0 0) ∧ decodeTableWord 8 0x00 = some (.mod 0 0) ∧
    decodeTableWord 16 0x0001 = some (.illegalTag1 0 0) := by decide

/-! ## Encoding (95_test_vectors.md section 2.1) -/

theorem test_encode_5000 : encodeTriple .loadConst 5 5000 = .ok [0x2D, 0xE2, 0x04] := by decide
theorem test_encode_smallest : encodeTriple .loadConst 7 (-16384) = .ok [0x3D, 0x00, 0x10] := by decide
theorem test_encode_largest : encodeTriple .loadConst 7 16383 = .ok [0xFD, 0xFF, 0x0F] := by decide
theorem test_encode_LOAD_MEM : encodeTriple .loadMem 3 4 = .ok [0x1C, 0x01] := by decide
theorem test_encode_STORE_MEM : encodeTriple .storeMem 6 5 = .ok [0x72, 0x01] := by decide
theorem test_encode_MOD : encodeTriple .mod 4 6 = .ok [0xA0, 0x01] := by decide
theorem test_encode_rejects :
    encodeTriple .loadConst 4 16384 = .error .operand ∧ encodeTriple .loadConst 4 (-16385) = .error .operand ∧
    encodeTriple .loadConst 8 99999 = .error .reg ∧ encodeTriple .mod 0 8 = .error .operand := by decide
theorem test_encode_instr : encode (.loadConst 0 765) = [0x45, 0xBF, 0x00] ∧ encode (.mod 7 11) = [0xF8, 0x02] ∧
    encode (.illegalTag7 7 1023) = [0xFF, 0xFF] := by decide

/-! ## Well-formedness: an ill-formed term for each check (R56, R62) -/

theorem test_wellFormed_accepts : (Instr.loadConst 7 1023).wellFormed = true ∧
    (Instr.loadMem 7 7).wellFormed = true ∧ (Instr.storeMem 0 0).wellFormed = true ∧
    (Instr.mod 7 7).wellFormed = true := by decide
theorem test_wellFormed_refuses_LOAD_MEM_8 : (Instr.loadMem 0 8).wellFormed = false := by decide
theorem test_wellFormed_refuses_STORE_MEM_8 : (Instr.storeMem 7 8).wellFormed = false := by decide
theorem test_wellFormed_refuses_MOD_1023 : (Instr.mod 3 1023).wellFormed = false := by decide
theorem test_wellFormed_refuses_tag_1 : (Instr.illegalTag1 0 0).wellFormed = false := by decide
theorem test_wellFormed_refuses_tag_3 : (Instr.illegalTag3 0 0).wellFormed = false := by decide
theorem test_wellFormed_refuses_tag_6 : (Instr.illegalTag6 0 0).wellFormed = false := by decide
theorem test_wellFormed_refuses_tag_7 : (Instr.illegalTag7 0 0).wellFormed = false := by decide

/-! ## One step per instruction (95_test_vectors.md section 2.4) -/

/-- S2. -/
theorem test_step_LOAD_CONST : nextHas (step (withReg (onStream [0xDD, 0xFF, 0x1F] 0 1023) 3 5)) (fun t =>
    t.readReg 3 == 1023 && t.pc == 3 &&
      t.trace == [⟨0, .loadConst, 3, 1023, .regWrite 3 1023⟩]) = true := by decide
/-- S26: byte0 at the upper bound still executes. -/
theorem test_step_LOAD_CONST_at_bound : nextHas
    (step { onStream [0x4D, 0x01, 0x00, 0x95, 0x01, 0x00] 0 3 with pc := 3 })
    (fun t => t.readReg 2 == 6 && t.pc == 6 && t.status == .running) = true := by decide
/-- S7. -/
theorem test_step_LOAD_MEM : nextHas (step (onStream [0xC4, 0xFF] 0 1023 [(1023, 6)])) (fun t =>
    t.readReg 0 == 6 && t.pc == 2 && t.trace == [⟨0, .loadMem, 0, 1023, .regWrite 0 6⟩]) = true := by decide
/-- S8. -/
theorem test_step_LOAD_MEM_outside : nextHas (step (onStream [0xC4, 0xFF] 0 1 [(1023, 6)])) (fun t =>
    t.status == .aborted (.outOfBounds 1023) && t.pc == 0 && t.readReg 0 == 0 && t.trace == []) = true := by
  decide
/-- S10: storing 0 leaves the cell unlisted. -/
theorem test_step_STORE_MEM : nextHas (step (onStream [0xFA, 0x01] 0 1023 [(7, 3)])) (fun t =>
    t.mem == [] && t.pc == 2 && t.trace == [⟨0, .storeMem, 7, 7, .memWrite 7 0⟩]) = true := by decide
/-- S12: an address below `window.low`. -/
theorem test_step_STORE_MEM_below : nextHas
    (step (withReg (onStream [0x4D, 0x01, 0x02, 0x00] 2 6) 0 5))
    (fun t => t.status == .aborted (.outOfBounds 0) && t.pc == 2 && t.mem == []) = true := by decide
/-- S18. -/
theorem test_step_MOD : nextHas (step (withReg (onStream [0x10, 0x00] 0 1023 [(0, 1000)]) 2 1023))
    (fun t => t.readReg 2 == 23 && t.pc == 2 && t.mem == [(0, 1000)] &&
      t.trace == [⟨0, .mod, 2, 0, .regWrite 2 23⟩]) = true := by decide
/-- S14. -/
theorem test_step_MOD_by_zero : nextHas (step (withReg (onStream [0x10, 0x00] 0 1023) 2 47)) (fun t =>
    t.readReg 2 == 47 && t.pc == 2 && t.status == .running &&
      t.trace == [⟨0, .mod, 2, 0, .divByZero 2 0⟩]) = true := by decide
/-- S21. -/
theorem test_step_ILLEGAL_1 : nextHas (step { onStream [0, 0, 0, 0x01, 0x00] 0 1023 with pc := 3 })
    (fun t => t.status == .aborted (.illegalOpcode 1) && t.pc == 3 && t.trace == []) = true := by decide
theorem test_step_ILLEGAL_3 : nextHas (step (onStream [0x03, 0x10] 0 1))
    (fun t => t.status == .aborted (.illegalOpcode 3) && t.pc == 0) = true := by decide
theorem test_step_ILLEGAL_6 : nextHas (step (onStream [0x06, 0x00] 0 1))
    (fun t => t.status == .aborted (.illegalOpcode 6) && t.pc == 0) = true := by decide
/-- P12. -/
theorem test_step_ILLEGAL_7 : nextHas (step (onStream [0x45, 0xBF, 0x00] 1 2))
    (fun t => t.status == .aborted (.illegalOpcode 7) && t.pc == 1) = true := by decide

/-! ## The step around the instruction -/

/-- S23: the fetch fault comes before the illegal tag. -/
theorem test_step_missing_byte1 : nextHas (step (onStream [0x07] 0 0))
    (fun t => t.status == .aborted (.fetchOutOfStream 1) && t.pc == 0) = true := by decide
/-- S25: `pc` one above the upper bound. -/
theorem test_step_halts_above_window : nextHas (step { onStream [0, 0, 0, 0, 0, 0] 0 3 with pc := 4 })
    (fun t => t.status == .halted && t.pc == 4) = true := by decide
/-- P11: an empty stream ends at once. -/
theorem test_step_halts_at_reset : nextHas (step State.reset) (fun t =>
    t.status == .halted && t.trace == []) = true := by decide
/-- The word is the next step's instruction, from reset and from the middle of a run. -/
theorem test_withFetchWord_reset : nextHas (step (State.reset.withFetchWord 24 0x00BF45)) (fun t =>
    t.readReg 0 == 765 && t.pc == 3) = true := by decide
theorem test_withFetchWord_later :
    nextHas (step (State.withFetchWord { onStream [0x00] 0 1 with pc := 4, status := .halted } 16 0x0085))
      (fun t => t.trace == [⟨4, .loadConst, 0, 2, .regWrite 0 2⟩]) = true := by decide

/-! ## The Encoder (95_test_vectors.md sections 2.1 and 2.3) -/

theorem test_line_encodes : lineBytes "LOAD_CONST 4 -1".toList = [0xE5, 0xFF, 0x1F] := by decide
theorem test_line_tabs : lineBytes "MOD\t 2  0".toList = [0x10, 0x00] := by decide
theorem test_lines_rejected :
    lineLog "load_const 1 2".toList = .failed "load_const 1 2".toList .unknownMnemonic ∧
    lineLog "FOO 1".toList = .failed "FOO 1".toList .unknownMnemonic ∧
    lineLog "LOAD_CONST 1 2 3".toList = .failed "LOAD_CONST 1 2 3".toList .tokenCount ∧
    lineLog "LOAD_CONST 1 0x10".toList = .failed "LOAD_CONST 1 0x10".toList .notInteger ∧
    lineLog "LOAD_MEM 1 -1".toList = .failed "LOAD_MEM 1 -1".toList .range := by decide
theorem test_assemble_skips_bad_line :
    (assemble ["LOAD_CONST 1 5".toList, "BAD 0 0".toList, "STORE_MEM 1 7".toList]).bytes =
      [0x4D, 0x01, 0x00, 0xCA, 0x01] := by decide

/-! ## Witnesses: every obligation with hypotheses has a case that meets them all -/

theorem witness_WellFormedIsWhatEncodeProduces :
    (Instr.mod 7 7).opcode = some .mod ∧ (Instr.mod 7 7).wellFormed = true ∧
    (Instr.loadConst 0 1023).opcode = some .loadConst ∧ (Instr.loadConst 0 1023).wellFormed = true := by
  decide

theorem witness_DecodeRecoversFields :
    ([0x00, 0x45, 0xBF] : List Byte)[1]? = some 0x45 ∧ ([0x00, 0x45, 0xBF] : List Byte)[1 + 1]? = some 0xBF := by
  decide

theorem witness_TagsSelectOpcodes :
    encodeTriple .loadConst 7 (-16384) = .ok [0x3D, 0x00, 0x10] ∧ encodeTriple .mod 0 0 = .ok [0x00, 0x00] := by
  decide

theorem witness_ConstantIsNormalised :
    (-16384 ≤ (-16384 : Int) ∧ (-16384 : Int) ≤ 16383 ∧ (-16384 : Int) < 0) ∧
    (-16384 ≤ (16383 : Int) ∧ (16383 : Int) ≤ 16383 ∧ 0 ≤ (16383 : Int)) ∧
    (-16384 ≤ (0 : Int) ∧ (0 : Int) ≤ 16383) ∧ (0 ≤ (7 : Int) ∧ (7 : Int) ≤ 7) := by decide

theorem witness_AddressOperandIsPacked :
    Opcode.mod ≠ .loadConst ∧ 0 ≤ (7 : Int) ∧ (7 : Int) ≤ 7 ∧ 0 ≤ (0 : Int) ∧ (-1 : Int) < 0 := by decide

theorem witness_EncodeRejectsOutOfRange :
    encodeTriple .mod (-1) 0 = .error .reg ∧ encodeTriple .mod 8 99 = .error .reg ∧
    encodeTriple .loadConst 0 (-16385) = .error .operand ∧ encodeTriple .loadConst 7 16384 = .error .operand ∧
    encodeTriple .storeMem 0 (-1) = .error .operand ∧ encodeTriple .storeMem 7 8 = .error .operand ∧
    encodeTriple .loadConst 0 16383 = .ok [0xC5, 0xFF, 0x0F] ∧ encodeTriple .storeMem 7 7 = .ok [0xFA, 0x01] := by
  decide

theorem witness_CodecRoundTripsInRange :
    (0 ≤ (7 : Int) ∧ (7 : Int) ≤ 7 ∧ 0 ≤ (1023 : Int) ∧ (1023 : Int) ≤ 1023) ∧
    decodeAt [0xFD, 0xFF, 0x00] 0 = .ok ⟨5, 7, 1023, 3⟩ ∧ decodeAt [0xFC, 0x01] 0 = .ok ⟨4, 7, 7, 2⟩ := by decide

theorem witness_CodecTruncatesWideConstants :
    ((-16384 : Int) ≤ -1 ∧ (1024 : Int) ≤ 16383) ∧ decodeAt [0x2D, 0x00, 0x01] 0 = .ok ⟨5, 5, 0, 3⟩ ∧
    decodeAt [0xE5, 0xFF, 0x1F] 0 = .ok ⟨5, 4, 1023, 3⟩ := by decide

theorem witness_EncodeIsInjective :
    encodeTriple .loadConst 3 (-1) = .ok [0xDD, 0xFF, 0x1F] ∧ (-1 : Int) % 1024 = 1023 % 1024 ∧
    encodeTriple .loadConst 3 1023 = .ok [0xDD, 0xFF, 0x00] := by decide

/-- The window `(3, 5)`: addresses 3 and 5 are inside, 2 and 6 outside. -/
theorem witness_MemReadChecksWindow :
    (2 < (onStream [] 3 5).window.low ∧ (onStream [] 3 5).window.high < 6) ∧
    (onStream [] 3 5).memRead 2 = .error (.outOfBounds 2) ∧ (onStream [] 3 5).memRead 6 = .error (.outOfBounds 6) ∧
    (onStream [] 3 5 [(3, 9)]).memRead 3 = .ok 9 ∧ (onStream [] 3 5).memRead 5 = .ok 0 := by decide

theorem witness_MemWriteChecksWindow :
    (1023 < (onStream [] 1024 2000).window.low ∧ 1023 ≤ 1023) ∧
    (onStream [] 1023 1023).window.low ≤ 1023 ∧ 1023 ≤ (onStream [] 1023 1023).window.high := by decide

theorem witness_AddressesAboveTheArrayAreOutOfBounds :
    (1023 < 1024) ∧ (onStream [] 0 2000).memRead 1024 = .error (.outOfBounds 1024) := by decide

theorem witness_CanonicalMemoriesWithEqualCellsAreEqual :
    Memory.wf [(0, 5), (1023, 1)] ∧ ¬ Memory.wf [(1, 5), (0, 1)] ∧ ¬ Memory.wf [(1, 0)] ∧ ¬ Memory.wf [(1024, 5)] := by
  decide

theorem witness_FetchReadsTheStream :
    (onStream [0x45, 0xBF] 0 0).stream[1]? = some 0xBF ∧ (onStream [0x45, 0xBF] 0 0).stream.length ≤ 2 := by decide

/-- The last instruction of the window: `pc = window.high`. -/
theorem witness_StepRunsDecodedInstruction :
    ({ onStream [0xDD, 0x10, 0x00] 0 1 with pc := 1 } : State).status = .running ∧
    ({ onStream [0xDD, 0x10, 0x00] 0 1 with pc := 1 } : State).pc ≤ 1 ∧
    decode (({ onStream [0xDD, 0x10, 0x00] 0 1 with pc := 1 } : State).stream.drop 1) = .ok (.mod 2 0) := by decide

theorem witness_HaltTestEndsTheRun :
    ((onStream [0, 0, 0] 2 1).status = .running ∧ (onStream [0, 0, 0] 2 1).window.high < (onStream [0, 0, 0] 2 1).pc) ∧
    ((onStream [0, 0] 2 9).stream.length ≤ (onStream [0, 0] 2 9).pc) ∧
    ((onStream [0, 0, 0] 1 1).pc ≤ (onStream [0, 0, 0] 1 1).window.high ∧
      (onStream [0, 0, 0] 1 1).pc < (onStream [0, 0, 0] 1 1).stream.length ∧
      nextHas (step (onStream [0, 0, 0] 1 1)) (fun _ => true) = true) := by decide

theorem witness_MissingByteOneAborts :
    (onStream [0x05] 0 0).status = .running ∧ (onStream [0x05] 0 0).pc ≤ (onStream [0x05] 0 0).window.high ∧
    (onStream [0x05] 0 0).pc + 1 = (onStream [0x05] 0 0).stream.length := by decide

theorem witness_TerminalStatusStays :
    (onStream [] 0 0).halt.status = .halted ∧
    ((onStream [] 0 0).abort (.outOfBounds 7)).status = .aborted (.outOfBounds 7) := by decide

/-- P10: the stream ends after byte1, and byte1 lies above `window.high`. -/
theorem witness_OnlyByteZeroIsBoundedByTheWindow :
    (onStream [0x45, 0xBF] 0 0).status = .running ∧ (onStream [0x45, 0xBF] 0 0).pc ≤ 0 ∧
    (onStream [0x45, 0xBF] 0 0).stream[0]? = some 0x45 ∧ (onStream [0x45, 0xBF] 0 0).stream[0 + 1]? = some 0xBF ∧
    tagOf 0x45 = 5 ∧ (onStream [0x45, 0xBF] 0 0).pc + 2 = (onStream [0x45, 0xBF] 0 0).stream.length := by decide

/-- LOAD_MEM, STORE_MEM and MOD inside a window of one address; the divisor there is not 0. -/
theorem witness_access_inside :
    (onStream [] 7 7 [(7, 3)]).window.low ≤ effectiveAddress 7 ∧
    effectiveAddress 7 ≤ (onStream [] 7 7 [(7, 3)]).window.high ∧
    (onStream [] 7 7 [(7, 3)]).mem.read (effectiveAddress 7) ≠ 0 := by decide

theorem witness_ModByZeroIsRecorded :
    (onStream [] 0 1023).window.low ≤ effectiveAddress 1023 ∧
    effectiveAddress 1023 ≤ (onStream [] 0 1023).window.high ∧
    (onStream [] 0 1023).mem.read (effectiveAddress 1023) = 0 := by decide

theorem witness_AccessOutsideTheWindowAborts :
    effectiveAddress 2 < (onStream [] 3 5).window.low ∧ (onStream [] 3 5).window.high < effectiveAddress 6 := by decide

theorem witness_ModIsIdempotent : ∃ s t u, exec (.mod 2 0) s = .next t ∧ exec (.mod 2 0) t = .next u ∧
    s.readReg 2 = 47 ∧ t.readReg 2 = 7 :=
  ⟨withReg (onStream [] 0 9 [(0, 10)]) 2 47, _, _, rfl, rfl, by decide, by decide⟩

theorem witness_LoadAfterStore :
    (onStream [] 0 1).window.low ≤ effectiveAddress 0 ∧ effectiveAddress 0 ≤ (onStream [] 0 1).window.high ∧
    (onStream [] 0 1).window.low ≤ effectiveAddress 1 ∧ effectiveAddress 1 ≤ (onStream [] 0 1).window.high := by decide

theorem witness_AssembledConstantIsLoadedModulo1024 :
    encodeTriple .loadConst 5 5000 = .ok [0x2D, 0xE2, 0x04] ∧
    (onStream [0x2D, 0xE2, 0x04, 0x00] 0 0).status = .running ∧
    (onStream [0x2D, 0xE2, 0x04, 0x00] 0 0).pc ≤ (onStream [0x2D, 0xE2, 0x04, 0x00] 0 0).window.high ∧
    (onStream [0x2D, 0xE2, 0x04, 0x00] 0 0).stream.drop 0 = [0x2D, 0xE2, 0x04] ++ [0x00] := by decide

theorem witness_AssembledTripleRunsAsItsInstruction :
    encodeTriple .storeMem 7 7 = .ok [0xFA, 0x01] ∧ (onStream [0xFA, 0x01] 0 0).status = .running ∧
    (onStream [0xFA, 0x01] 0 0).pc ≤ (onStream [0xFA, 0x01] 0 0).window.high ∧
    (onStream [0xFA, 0x01] 0 0).stream.drop 0 = [0xFA, 0x01] ++ [] := by decide

/-- The state of P2 after its first instruction: a register is written, the trace has a record. -/
def midRun : State :=
  { withReg (onStream [0x45, 0xBF, 0x00, 0xC0, 0x00] 0 4) 0 765 with
    pc := 3, trace := [⟨0, .loadConst, 0, 765, .regWrite 0 765⟩] }

/-- The next state of `midRun` exists, still runs and is reached by a MOD that records a division by
zero: the case the second clause of the statement about R86 names. -/
theorem witness_step_of_midRun : midRun.status = .running ∧ ∃ t, step midRun = .next t ∧ t.status = .running ∧
    t.trace = midRun.trace ++ [⟨3, .mod, 0, 3, .divByZero 0 3⟩] :=
  ⟨rfl, _, rfl, by decide, by decide⟩

/-- A completed LOAD_CONST moves `pc` by 3, a STORE_MEM at the last address of the window by 2, and a MOD
with a zero divisor at the first address of the window completes. -/
theorem witness_CompletedStepAdvancesByLength :
    nextHas (step (onStream [0x45, 0xBF] 0 0)) (fun t => t.status == .running && t.pc == 3) = true ∧
    nextHas (step (onStream [0xFA, 0x01] 0 7)) (fun t => t.status == .running && t.pc == 2) = true ∧
    (onStream [] 5 5).status = .running ∧ (onStream [] 5 5).window.low ≤ effectiveAddress 5 ∧
    effectiveAddress 5 ≤ (onStream [] 5 5).window.high ∧ (onStream [] 5 5).mem.read (effectiveAddress 5) = 0 := by
  decide

/-- Each case of the statement about R84: the halt test, a fatal fault, a register written (S18), a data
cell written at the upper bound of the window (S10's bytes). -/
theorem witness_StepChangesAtMostOneCell :
    nextHas (step (onStream [] 0 9)) (fun t => t.status != .running) = true ∧
    nextHas (step (onStream [0xFA, 0x01] 0 6)) (fun t => t.status != .running) = true ∧
    nextHas (step (withReg (onStream [0x10, 0x00] 0 1023 [(0, 1000)]) 2 1023)) (fun t =>
      t.status == .running && t.readReg 2 == 23) = true ∧ tagOf 0x10 = 0 ∧ regOf 0x10 = 2 ∧
    nextHas (step (withReg (onStream [0xFA, 0x01] 0 7) 7 5)) (fun t =>
      t.status == .running && t.mem == [(7, 5)]) = true ∧
    tagOf 0xFA = 2 ∧ effectiveAddress (operandOf 0xFA 0x01) = 7 := by decide

/-- A completed step for each opcode: S13, S14 and their like, with the outcome of R24's table. -/
theorem witness_CompletedStepRecordsItsInstruction :
    nextHas (step (onStream [0x45, 0xBF] 0 0)) (fun t =>
      t.status == .running && t.trace == [⟨0, .loadConst, 0, 765, .regWrite 0 765⟩]) = true ∧
    nextHas (step (onStream [0xD4, 0x00] 3 3 [(3, 9)])) (fun t => t.status != .running) = true ∧
    nextHas (step (onStream [0xD4, 0x00] 0 3 [(3, 9)])) (fun t =>
      t.status == .running && t.trace == [⟨0, .loadMem, 2, 3, .regWrite 2 9⟩]) = true ∧
    nextHas (step (withReg (onStream [0xFA, 0x01] 0 7) 7 5)) (fun t =>
      t.status == .running && t.trace == [⟨0, .storeMem, 7, 7, .memWrite 7 5⟩]) = true ∧
    nextHas (step (withReg (onStream [0x10, 0x00] 0 0 [(0, 10)]) 2 47)) (fun t =>
      t.status == .running && t.trace == [⟨0, .mod, 2, 0, .regWrite 2 7⟩]) = true ∧
    nextHas (step (withReg (onStream [0x10, 0x00] 0 0) 2 47)) (fun t =>
      t.status == .running && t.trace == [⟨0, .mod, 2, 0, .divByZero 2 0⟩]) = true := by decide

theorem witness_StepKeepsValues : midRun.ValuesOk :=
  ⟨by decide, fun a => Nat.zero_le _, by decide, by decide⟩

theorem witness_StepKeepsControl : midRun.ControlOk := by
  refine ⟨⟨rfl, rfl⟩, fun e he => ?_, .inr (by decide), trivial⟩
  rw [List.mem_singleton.mp he]
  exact ⟨by decide, .loadConst 0 765, by decide, rfl, rfl, rfl⟩

theorem witness_StepKeepsTraceExplaining : midRun.TraceExplains := by
  refine ⟨by decide, fun a => rfl, fun before e after h => ?_⟩
  cases before with
  | nil =>
    obtain ⟨rfl, -⟩ := List.cons.inj h
    decide
  | cons f fs => simp [midRun] at h

theorem witness_FaultsArePrecise : ∃ t, step (onStream [0xC4, 0xFF] 0 1) = .next t ∧
    t.status = .aborted (.outOfBounds 1023) := ⟨_, rfl, by decide⟩

/-- Each disjunct of the status after a step, at its boundary. -/
theorem witness_FaultPriority :
    nextHas (step (onStream [] 0 9)) (fun t => t.status == .halted) = true ∧
    nextHas (step (onStream [0x01] 0 0)) (fun t => t.status == .aborted (.fetchOutOfStream 1)) = true ∧
    nextHas (step (onStream [0xC1, 0x01] 0 0)) (fun t => t.status == .aborted (.illegalOpcode 1)) = true ∧
    nextHas (step (onStream [0x40, 0x00] 0 0)) (fun t => t.status == .aborted (.outOfBounds 1)) = true ∧
    nextHas (step (onStream [0x00, 0x00] 0 0)) (fun t => t.status == .running) = true ∧
    nextHas (step (onStream [0x45, 0x00] 0 0)) (fun t => t.status == .running) = true := by decide

theorem witness_StepReadsTwoBytesOfTheStream : ∃ t, step (onStream [0x45, 0xBF, 0x00] 0 2) = .next t ∧
    2 ≠ (onStream [0x45, 0xBF, 0x00] 0 2).pc ∧ 2 ≠ (onStream [0x45, 0xBF, 0x00] 0 2).pc + 1 :=
  ⟨_, rfl, by decide, by decide⟩

theorem witness_TraceIsNeverRead : ∃ t, step midRun = .next t := ⟨_, rfl⟩

theorem witness_UpperRegistersAreUnreachable : 8 ≤ (8 : Fin 16).val ∧ 8 ≤ (15 : Fin 16).val ∧
    ∃ t, step midRun = .next t := ⟨by decide, by decide, _, rfl⟩

theorem witness_IntegerTokensAreDecimal :
    parseInteger ['-', '1', '0'] = some (-10) ∧ ['-', '1', '0'] = '-' :: [1, 0].map digitChar ∧
    parseInteger ['0', '0', '7'] = some 7 ∧ parseInteger ['-'] = none ∧ parseInteger ['+', '5'] = none := by decide

theorem witness_TokensSplitAtSeparators :
    (∀ c ∈ ['M'] ++ ['1'] ++ ['2'], isSeparator c = false) ∧
    (∀ c ∈ [' ', '\t'] ++ [' '], isSeparator c = true) ∧
    splitTokens ['M', ' ', '\t', '1', ' ', '2'] = [['M'], ['1'], ['2']] :=
  ⟨by simp [isSeparator], by simp [isSeparator], by decide⟩

/-- One line for each clause: the mnemonic, the token count, the integers, the range, and acceptance. -/
theorem witness_LineReasonsInOrder :
    splitTokens "FOO 1".toList = ["FOO".toList, "1".toList] ∧ parseMnemonic "FOO".toList = none ∧
    parseMnemonic "MOD".toList = some .mod ∧ ["1".toList].length ≠ 2 ∧ parseInteger "x".toList = none ∧
    parseInteger "8".toList = some 8 ∧ encodeTriple .mod 8 8 = .error .reg ∧
    encodeTriple .mod 7 7 = .ok [0xF8, 0x01] := by decide

theorem witness_RejectedLinesAreSkipped :
    encodeLine "BAD 0 0".toList = .error .unknownMnemonic ∧
    encodeLine "STORE_MEM 1 7".toList = .ok (.storeMem, 1, 7, [0xCA, 0x01]) := by decide

theorem witness_AssembledStreamsStayOnBoundaries :
    (onStream [0xCA, 0x01] 0 1).status = .running ∧ (onStream [0xCA, 0x01] 0 1).OnBoundary ∧
    ∃ t, step (onStream [0xCA, 0x01] 0 1) = .next t :=
  ⟨rfl, ⟨[[0xCA, 0x01]], rfl, fun c hc => ⟨.storeMem, 1, 7, by rw [List.mem_singleton.mp hc]; decide⟩⟩, _, rfl⟩

end Sys2Proof.Tests
end

-- ==== Registers: writes, frames and the start of a run ====
section
/-! The register file (R11, R13): what a write leaves unchanged, and what a run starts from. -/

namespace Sys2Proof.Machine

theorem regIndex_lt_eight (r : RegNum) : (regIndex r).val < 8 := r.isLt

/-- No register field names one of the cells `x[8]` to `x[15]`, so a write keeps them (R11). -/
theorem writeReg_upper (s : State) (r : RegNum) (v : Cell) (i : Fin 16) (hi : 8 ≤ i.val) :
    (s.writeReg r v).x[i] = s.x[i] := by
  have hne : (regIndex r).val ≠ i.val := Nat.ne_of_lt (Nat.lt_of_lt_of_le (regIndex_lt_eight r) hi)
  exact Vector.getElem_set_ne (regIndex r).isLt i.isLt hne

/-- A write gives its register the value, whatever it held (R13). -/
theorem readReg_writeReg_same (s : State) (r : RegNum) (v : Cell) : (s.writeReg r v).readReg r = v := by
  rw [readReg_writeReg, if_pos rfl]

/-- The frame of a register write within the register file (R11, R13). -/
theorem writeReg_onlyRegChanged (s : State) (r : RegNum) (v : Cell) :
    OnlyRegChanged s (s.writeReg r v) r where
  others q hq := by rw [readReg_writeReg, if_neg hq]
  upper := writeReg_upper s r v

/-- Every register reads 0 where a run starts (R13, R146). -/
theorem readReg_start (S : List Byte) (w : Window) (r : RegNum) : (State.start S w).readReg r = 0 := by
  rw [State.readReg, start_x]
  exact Vector.getElem_replicate (regIndex r).isLt

/-- Settles O13: the read after a write, its frame in the register file, and the start of a run. -/
theorem registersHoldWhatWasWritten : Obligations.RegistersHoldWhatWasWritten :=
  ⟨fun s r v => ⟨readReg_writeReg_same s r v, writeReg_onlyRegChanged s r v⟩, readReg_start⟩

end Sys2Proof.Machine
end

-- ==== Memory accessors: the window check, reads and writes ====
section
/-! The window-checked accessors (R32, R33): when the check passes, and what each accessor answers
on either side of it. -/

namespace Sys2Proof.Machine

/-- An address is refused exactly when it misses the window on one side, or the array (R32, D17). -/
theorem canAccess_eq_false_iff (s : State) (a : Nat) :
    s.canAccess a = false ↔ a < s.window.low ∨ s.window.high < a ∨ Config.memCells ≤ a := by
  rw [← Bool.not_eq_true, canAccess_iff]
  omega

/-- Inside the array only the window decides, both bounds inclusive (R32). -/
theorem canAccess_of_window {s : State} {a : Nat} (ha : a ≤ 1023) (hlow : s.window.low ≤ a)
    (hhigh : a ≤ s.window.high) : s.canAccess a = true :=
  (canAccess_iff s a).mpr ⟨hlow, hhigh, Nat.lt_succ_of_le ha⟩

theorem not_canAccess_of_outside {s : State} {a : Nat}
    (h : a < s.window.low ∨ s.window.high < a) : s.canAccess a = false :=
  (canAccess_eq_false_iff s a).mpr (h.imp_right .inl)

theorem memRead_of_canAccess {s : State} {a : Nat} (h : s.canAccess a = true) :
    s.memRead a = .ok (s.mem.read a) :=
  if_pos h

theorem memRead_of_not_canAccess {s : State} {a : Nat} (h : s.canAccess a = false) :
    s.memRead a = .error (.outOfBounds a) :=
  if_neg (Bool.eq_false_iff.mp h)

theorem memWrite_of_canAccess {s : State} {a : Nat} (v : Cell) (h : s.canAccess a = true) :
    s.memWrite a v = .ok { s with mem := s.mem.write a v } :=
  if_pos h

theorem memWrite_of_not_canAccess {s : State} {a : Nat} (v : Cell) (h : s.canAccess a = false) :
    s.memWrite a v = .error (.outOfBounds a) :=
  if_neg (Bool.eq_false_iff.mp h)

theorem read_write_same (m : Memory) (a : Nat) (v : Cell) : (m.write a v).read a = v := by
  rw [read_write, if_pos rfl]

theorem read_write_of_ne (m : Memory) {a b : Nat} (v : Cell) (h : b ≠ a) :
    (m.write a v).read b = m.read b := by
  rw [read_write, if_neg h]

/-- Settles O15: past the check, the state with one cell written is the witness; the cell and its
frame are the read-after-write rules of memory. -/
theorem memWriteChecksWindow : Obligations.MemWriteChecksWindow := by
  intro s a v ha
  constructor
  · intro hout
    exact memWrite_of_not_canAccess v (not_canAccess_of_outside hout)
  · intro hlow hhigh
    refine ⟨{ s with mem := s.mem.write a v },
      memWrite_of_canAccess v (canAccess_of_window ha hlow hhigh), ?written, ?others, rfl⟩
    case written => exact read_write_same s.mem a v
    case others => exact fun b hb => read_write_of_ne s.mem v hb

/-- Settles O14: the window decides inside the array, and the read answers accordingly. -/
theorem memReadChecksWindow : Obligations.MemReadChecksWindow := by
  intro s a ha
  constructor
  · intro hout
    exact memRead_of_not_canAccess (not_canAccess_of_outside hout)
  · intro hlow hhigh
    exact memRead_of_canAccess (canAccess_of_window ha hlow hhigh)

end Sys2Proof.Machine
end

-- ==== Codec: the fields the decoder reads from two bytes ====
section
/-! The decoder (R53, R59): its fields by the rule's formulas on two bytes, and which two bytes of the
stream it reads. -/

namespace Sys2Proof

theorem toNat_tagOf_eq_and (b0 : Byte) : (tagOf b0).toNat = b0.toNat &&& 0x7 := by
  rw [toNat_tagOf, Nat.and_two_pow_sub_one_eq_mod b0.toNat 3]

theorem toNat_regOf_eq_and (b0 : Byte) : (regOf b0).toNat = (b0.toNat >>> 3) &&& 0x7 := by
  rw [toNat_regOf, Nat.and_two_pow_sub_one_eq_mod _ 3, Nat.shiftRight_eq_div_pow]

theorem toNat_operandOf_eq_or (b0 b1 : Byte) :
    (operandOf b0 b1).toNat = (b1.toNat <<< 2) ||| ((b0.toNat >>> 6) &&& 0x3) := by
  rw [toNat_operandOf, Nat.and_two_pow_sub_one_eq_mod _ 2,
    ← Nat.shiftLeft_add_eq_or_of_lt (Nat.mod_lt _ (by decide)), Nat.shiftRight_eq_div_pow,
    Nat.shiftLeft_eq]
  omega

/-- The tag test of the length rule is the rule's own test on the number (R53). -/
theorem lengthOf_eq_ite_and (b0 : Byte) : lengthOf b0 = if b0.toNat &&& 0x7 = 5 then 3 else 2 := by
  have htag : tagOf b0 = 5 ↔ b0.toNat &&& 0x7 = 5 := by
    rw [← BitVec.toNat_inj, toNat_tagOf_eq_and]
    rfl
  simp only [lengthOf, lengthOfTag, htag]

/-- Settles O5: the length rule tests the tag, and the tag is the low three bits. -/
theorem tagAloneDecidesLength : Obligations.TagAloneDecidesLength :=
  lengthOf_eq_ite_and

/-- With two bytes at the offset, `Decode` reads those two (R59). -/
theorem decodeAt_of_two_bytes {S : List Byte} {a : Nat} {b0 b1 : Byte} (h0 : S[a]? = some b0)
    (h1 : S[a + 1]? = some b1) : decodeAt S a = .ok (fieldsOf b0 b1) := by
  obtain ⟨ha0, rfl⟩ := List.getElem?_eq_some_iff.mp h0
  obtain ⟨ha1, rfl⟩ := List.getElem?_eq_some_iff.mp h1
  rw [decodeAt, List.drop_eq_getElem_cons ha0, List.drop_eq_getElem_cons ha1, decodeFields]

/-- Settles O4: `Decode` answers the fields of the two bytes, each with its formula, and the widths of
the fields are the bounds. -/
theorem decodeRecoversFields : Obligations.DecodeRecoversFields := by
  intro S a b0 b1 h0 h1
  exact ⟨fieldsOf b0 b1, decodeAt_of_two_bytes h0 h1, toNat_tagOf_eq_and b0, toNat_regOf_eq_and b0,
    toNat_operandOf_eq_or b0 b1, lengthOf_eq_ite_and b0, Nat.le_of_lt_succ (regOf b0).isLt,
    Nat.le_of_lt_succ (operandOf b0 b1).isLt⟩

end Sys2Proof
end

-- ==== Codec: what Encode answers, and its bytes as numbers ====
section
/-! `Encode` (R54 to R58): its answer in range and out of range, the constant's 15-bit value, and the
bytes of both formats as numbers. -/

namespace Sys2Proof

/-! ## The arguments as bit vectors -/

/-- A 3-bit argument in range is kept as it is: a register, or an M-format operand (R55). -/
theorem toNat_ofInt_three {n : Int} (h0 : 0 ≤ n) (h7 : n ≤ 7) : ((BitVec.ofInt 3 n).toNat : Int) = n := by
  rw [BitVec.toNat_ofInt]
  omega

/-- The 15-bit value of a constant is the constant mod `2^15`, of either sign (R57). -/
theorem toNat_normaliseConst {c : Int} (hlow : -16384 ≤ c) :
    ((normaliseConst c).toNat : Int) = c % 32768 := by
  rw [normaliseConst, BitVec.toNat_ofNat]
  split_ifs <;> omega

/-- The top bit of a 15-bit value says that it is in the upper half. -/
theorem getLsbD_fourteen_eq_decide (v : BitVec 15) : v.getLsbD 14 = decide (16384 ≤ v.toNat) := by
  rw [← BitVec.msb_eq_getLsbD_last, BitVec.msb_eq_decide]

/-! ## The answer of `Encode` -/

theorem operandInRange_loadConst_iff (c : Int) :
    Opcode.loadConst.operandInRange c = true ↔ -16384 ≤ c ∧ c ≤ 16383 := by
  simp [Opcode.operandInRange]

/-- The three opcodes of the M-format share one operand range (R56). -/
theorem operandInRange_iff_of_ne_loadConst {op : Opcode} (hop : op ≠ .loadConst) (a : Int) :
    op.operandInRange a = true ↔ 0 ≤ a ∧ a ≤ 7 := by
  cases op with
  | loadConst => exact absurd rfl hop
  | loadMem => simp [Opcode.operandInRange]
  | storeMem => simp [Opcode.operandInRange]
  | mod => simp [Opcode.operandInRange]

/-- A register in 0..7 passes the first test of `Encode` (R56). -/
theorem not_reg_out_of_range {reg : Int} (h0 : 0 ≤ reg) (h7 : reg ≤ 7) :
    ¬ (reg < 0 ∨ Config.regMax < reg) :=
  not_or.mpr ⟨not_lt.mpr h0, not_lt.mpr h7⟩

theorem encodeTriple_of_operand_out_of_range {op : Opcode} {reg a : Int} (h0 : 0 ≤ reg) (h7 : reg ≤ 7)
    (ha : op.operandInRange a = false) : encodeTriple op reg a = .error .operand :=
  (if_neg (not_reg_out_of_range h0 h7)).trans (if_pos ha)

/-- In range, `Encode` of a LOAD_CONST gives the C-format of the normalised constant (R54, R57). -/
theorem encodeTriple_loadConst {reg c : Int} (h0 : 0 ≤ reg) (h7 : reg ≤ 7) (hlow : -16384 ≤ c)
    (hhigh : c ≤ 16383) :
    encodeTriple .loadConst reg c = .ok (packConst (BitVec.ofInt 3 reg) (normaliseConst c)) := by
  have hc := (operandInRange_loadConst_iff c).mpr ⟨hlow, hhigh⟩
  exact (if_neg (not_reg_out_of_range h0 h7)).trans (if_neg (ne_false_of_eq_true hc))

/-- In range, `Encode` of the three others gives the M-format with the opcode's tag (R55, R58). -/
theorem encodeTriple_of_ne_loadConst {op : Opcode} (hop : op ≠ .loadConst) {reg a : Int} (h0 : 0 ≤ reg)
    (h7 : reg ≤ 7) (ha0 : 0 ≤ a) (ha7 : a ≤ 7) :
    encodeTriple op reg a = .ok (packAddr op.tag (BitVec.ofInt 3 reg) (BitVec.ofInt 3 a)) := by
  have ha := (operandInRange_iff_of_ne_loadConst hop a).mpr ⟨ha0, ha7⟩
  unfold encodeTriple
  rw [if_neg (not_reg_out_of_range h0 h7), if_neg (ne_false_of_eq_true ha)]
  cases op with
  | loadConst => exact absurd rfl hop
  | loadMem => rfl
  | storeMem => rfl
  | mod => rfl

/-! ## The bytes as numbers -/

/-- Zeros above a bit vector leave its value. -/
theorem toNat_zeros_append (m : Nat) {n : Nat} (x : BitVec n) : (0#m ++ x).toNat = x.toNat := by
  rw [BitVec.toNat_append, BitVec.toNat_ofNat, Nat.zero_mod, Nat.zero_shiftLeft, Nat.zero_or]

/-- byte0 with the low two bits of a wider value, the fields at their weights (R51). -/
theorem toNat_packByte0_low (t : Tag) (r : RegNum) {n : Nat} (v : BitVec n) :
    (packByte0 t r (v.extractLsb' 0 2)).toNat = 64 * (v.toNat % 4) + 8 * r.toNat + t.toNat := by
  rw [toNat_packByte0, BitVec.extractLsb'_toNat, Nat.shiftRight_zero]
  omega

/-- The C-format: byte0, the middle eight bits, the top five bits (R54). -/
theorem toNat_packConst (r : RegNum) (v : BitVec 15) :
    (packConst r v).map BitVec.toNat =
      [64 * (v.toNat % 4) + 8 * r.toNat + 5, v.toNat / 4 % 256, v.toNat / 1024] := by
  have hbyte0 : (packByte0 5 r (v.extractLsb' 0 2)).toNat = 64 * (v.toNat % 4) + 8 * r.toNat + 5 :=
    toNat_packByte0_low 5 r v
  have hbyte1 : (v.extractLsb' 2 8).toNat = v.toNat / 4 % 256 := by
    rw [BitVec.extractLsb'_toNat, Nat.shiftRight_eq_div_pow]
  have hbyte2 : (0#3 ++ v.extractLsb' 10 5).toNat = v.toNat / 1024 := by
    rw [toNat_zeros_append, BitVec.extractLsb'_toNat, Nat.shiftRight_eq_div_pow]
    omega
  simp only [packConst, List.map_cons, List.map_nil, hbyte0, hbyte1, hbyte2]

/-- The M-format: byte0 and the operand's top bit (R55). -/
theorem toNat_packAddr (t : Tag) (r : RegNum) (a : BitVec 3) :
    (packAddr t r a).map BitVec.toNat =
      [64 * (a.toNat % 4) + 8 * r.toNat + t.toNat, a.toNat / 4] := by
  have hbyte1 : (0#7 ++ a.extractLsb' 2 1).toNat = a.toNat / 4 := by
    rw [toNat_zeros_append, BitVec.extractLsb'_toNat, Nat.shiftRight_eq_div_pow]
    omega
  simp only [packAddr, List.map_cons, List.map_nil, toNat_packByte0_low, hbyte1]

end Sys2Proof
end

-- ==== Codec: the packing obligations ====
section
/-! R57 and R58: the bytes of `Encode` in terms of the integers it is given. -/

namespace Sys2Proof

/-- The rule's formulas are on integers, the packing laws on naturals. -/
theorem map_toNat_cast (bytes : List Byte) :
    bytes.map (fun b => (b.toNat : Int)) = (bytes.map BitVec.toNat).map Nat.cast := by
  rw [List.map_map]
  rfl

/-- A constant that is not negative keeps its value, with the top bit clear (R57). -/
theorem normaliseConst_of_nonneg {c : Int} (h0 : 0 ≤ c) (hhigh : c ≤ 16383) :
    ((normaliseConst c).toNat : Int) = c ∧ (normaliseConst c).getLsbD 14 = false := by
  have hv := toNat_normaliseConst (c := c) (by omega)
  rw [getLsbD_fourteen_eq_decide, decide_eq_false_iff_not]
  omega

/-- A negative constant becomes `2^15` plus it, with the top bit set (R57). -/
theorem normaliseConst_of_neg {c : Int} (hlow : -16384 ≤ c) (hneg : c < 0) :
    ((normaliseConst c).toNat : Int) = 32768 + c ∧ 16384 ≤ (normaliseConst c).toNat ∧
      (normaliseConst c).getLsbD 14 = true := by
  have hv := toNat_normaliseConst hlow
  rw [getLsbD_fourteen_eq_decide, decide_eq_true_eq]
  omega

/-- The three bytes of a LOAD_CONST by the constant mod `2^15` (R54, R57). -/
theorem packConst_normaliseConst {reg c : Int} (h0 : 0 ≤ reg) (h7 : reg ≤ 7) (hlow : -16384 ≤ c) :
    (packConst (BitVec.ofInt 3 reg) (normaliseConst c)).map (fun b => (b.toNat : Int)) =
      [64 * (c % 32768 % 4) + 8 * reg + 5, c % 32768 / 4 % 256, c % 32768 / 1024] := by
  rw [map_toNat_cast, toNat_packConst, ← toNat_normaliseConst hlow]
  simp [-BitVec.toNat_ofInt, toNat_ofInt_three h0 h7]

/-- The two bytes of the M-format by the operand itself (R55, R58). -/
theorem packAddr_ofInt (t : Tag) {reg a : Int} (h0 : 0 ≤ reg) (h7 : reg ≤ 7) (ha0 : 0 ≤ a)
    (ha7 : a ≤ 7) :
    (packAddr t (BitVec.ofInt 3 reg) (BitVec.ofInt 3 a)).map (fun b => (b.toNat : Int)) =
      [64 * (a % 4) + 8 * reg + (t.toNat : Int), a / 4] := by
  rw [map_toNat_cast, toNat_packAddr]
  simp [-BitVec.toNat_ofInt, toNat_ofInt_three h0 h7, toNat_ofInt_three ha0 ha7]

/-- Settles O7: the value by sign, its residue, and the bytes `Encode` answers. -/
theorem constantIsNormalised : Obligations.ConstantIsNormalised := by
  refine ⟨fun c hlow hhigh => ⟨?nonneg, ?neg, ?bound, toNat_normaliseConst hlow, ?bytes⟩, ?minusOne⟩
  case nonneg => exact fun h0 => normaliseConst_of_nonneg h0 hhigh
  case neg => exact normaliseConst_of_neg hlow
  case bound => exact Nat.le_of_lt_succ (normaliseConst c).isLt
  case bytes =>
    intro reg h0 h7
    exact ⟨_, encodeTriple_loadConst h0 h7 hlow hhigh, packConst_normaliseConst h0 h7 hlow⟩
  case minusOne => decide

/-- Settles O8: in 0..7 the bytes are those of the M-format; a negative operand fails the range test,
which nothing normalises first. -/
theorem addressOperandIsPacked : Obligations.AddressOperandIsPacked := by
  refine ⟨fun op reg a hop h0 h7 => ⟨?inRange, ?negative⟩, ?exampleLoadMem, ?exampleStoreMem⟩
  case inRange =>
    intro ha0 ha7
    exact ⟨_, encodeTriple_of_ne_loadConst hop h0 h7 ha0 ha7, packAddr_ofInt op.tag h0 h7 ha0 ha7⟩
  case negative =>
    intro hneg
    have hout : op.operandInRange a = false := by
      rw [← Bool.not_eq_true, operandInRange_iff_of_ne_loadConst hop]
      omega
    exact encodeTriple_of_operand_out_of_range h0 h7 hout
  case exampleLoadMem => decide
  case exampleStoreMem => decide

end Sys2Proof
end

-- ==== Codec: Decode after Encode ====
section
/-! The round trip (R64, R65). Both formats begin with the two bytes `packPair` writes, so one law says
what the decoder reads back from either. -/

namespace Sys2Proof

/-- The decoder reads back the tag, the register and the operand of the first two bytes, whatever
follows them (R59, R60). -/
theorem decodeAt_packPair (t : Tag) (r : RegNum) (k : Operand) (rest : List Byte) :
    decodeAt (packPair t r k ++ rest) 0 = .ok ⟨t, r, k, lengthOfTag t⟩ := by
  have hdecode : decodeAt (packPair t r k ++ rest) 0 =
      .ok (fieldsOf (packByte0 t r (k.extractLsb' 0 2)) (k.extractLsb' 2 8)) := rfl
  rw [hdecode, fieldsOf, lengthOf, tagOf_packByte0, regOf_packByte0, operandOf_packPair]

/-- Before its third byte the C-format holds the low ten bits of the value (R54). -/
theorem packConst_eq_packPair (r : RegNum) (v : BitVec 15) :
    packConst r v = packPair 5 r (v.extractLsb' 0 10) ++ [0#3 ++ v.extractLsb' 10 5] := by
  have hlow : (v.extractLsb' 0 10).extractLsb' 0 2 = v.extractLsb' 0 2 := by
    apply BitVec.eq_of_toNat_eq
    simp only [BitVec.extractLsb'_toNat]
    omega
  have hmiddle : (v.extractLsb' 0 10).extractLsb' 2 8 = v.extractLsb' 2 8 := by
    apply BitVec.eq_of_toNat_eq
    simp only [BitVec.extractLsb'_toNat, Nat.shiftRight_eq_div_pow]
    omega
  rw [packPair, hlow, hmiddle]
  rfl

/-- The M-format is the pair of its operand widened with zeros (R55). -/
theorem packAddr_eq_packPair (t : Tag) (r : RegNum) (a : BitVec 3) :
    packAddr t r a = packPair t r (a.setWidth 10) := by
  have hlow : (a.setWidth 10).extractLsb' 0 2 = a.extractLsb' 0 2 := by
    apply BitVec.eq_of_toNat_eq
    simp only [BitVec.extractLsb'_toNat, BitVec.toNat_setWidth]
    omega
  have hhigh : (a.setWidth 10).extractLsb' 2 8 = 0#7 ++ a.extractLsb' 2 1 := by
    apply BitVec.eq_of_toNat_eq
    rw [toNat_zeros_append]
    simp only [BitVec.extractLsb'_toNat, BitVec.toNat_setWidth, Nat.shiftRight_eq_div_pow]
    omega
  rw [packAddr, packPair, hlow, hhigh]

theorem decodeAt_packConst (r : RegNum) (v : BitVec 15) :
    decodeAt (packConst r v) 0 = .ok ⟨5, r, v.extractLsb' 0 10, 3⟩ := by
  rw [packConst_eq_packPair, decodeAt_packPair]
  rfl

theorem decodeAt_packAddr (t : Tag) (r : RegNum) (a : BitVec 3) :
    decodeAt (packAddr t r a) 0 = .ok ⟨t, r, a.setWidth 10, lengthOfTag t⟩ := by
  rw [packAddr_eq_packPair, ← List.append_nil (packPair t r _), decodeAt_packPair]

/-- LOAD_CONST is the only opcode with a third byte (R50, R53). -/
theorem lengthOfTag_of_ne_loadConst {op : Opcode} (hop : op ≠ .loadConst) : lengthOfTag op.tag = 2 := by
  cases op with
  | loadConst => exact absurd rfl hop
  | loadMem => rfl
  | storeMem => rfl
  | mod => rfl

/-- The operand read back from a LOAD_CONST is the constant mod `2^10`, of either sign (R65). -/
theorem toNat_operand_normaliseConst {c : Int} (hlow : -16384 ≤ c) :
    (((normaliseConst c).extractLsb' 0 10).toNat : Int) = c % 1024 := by
  have hv := toNat_normaliseConst hlow
  rw [BitVec.extractLsb'_toNat, Nat.shiftRight_zero]
  omega

/-- The operand read back from the M-format is the operand itself (R64). -/
theorem toNat_operand_setWidth {a : Int} (h0 : 0 ≤ a) (h7 : a ≤ 7) :
    (((BitVec.ofInt 3 a).setWidth 10).toNat : Int) = a := by
  rw [BitVec.toNat_setWidth_of_le (by decide), toNat_ofInt_three h0 h7]

/-- Settles O10, by the format: in 0..1023 the residue of a constant is the constant, and the M-format
keeps all of its operand. -/
theorem codecRoundTripsInRange : Obligations.CodecRoundTripsInRange := by
  intro op reg operand h0 h7 hnonneg hconst haddr
  by_cases hop : op = .loadConst
  · subst hop
    have hle := hconst rfl
    have hresidue : operand % 1024 = operand := Int.emod_eq_of_lt hnonneg (by omega)
    exact ⟨_, _, encodeTriple_loadConst h0 h7 (by omega) (by omega), decodeAt_packConst _ _, rfl,
      toNat_ofInt_three h0 h7, (toNat_operand_normaliseConst (by omega)).trans hresidue, rfl⟩
  · have hle := haddr hop
    exact ⟨_, _, encodeTriple_of_ne_loadConst hop h0 h7 hnonneg hle, decodeAt_packAddr _ _ _, rfl,
      toNat_ofInt_three h0 h7, toNat_operand_setWidth hnonneg hle, lengthOfTag_of_ne_loadConst hop⟩

/-- Settles O11: the residue is in 0..1023, where the constant is not. -/
theorem codecTruncatesWideConstants : Obligations.CodecTruncatesWideConstants := by
  intro reg c h0 h7 hwide
  have hoperand := toNat_operand_normaliseConst (c := c) (by omega)
  refine ⟨_, _, encodeTriple_loadConst h0 h7 (by omega) (by omega), decodeAt_packConst _ _, hoperand, ?_⟩
  rw [hoperand]
  omega

end Sys2Proof
end

-- ==== Fetch and execute: a completed instruction and its length ====
section
/-! The end of an instruction (R85, R86): it completes, with one record and the advance by its
opcode's length, or it takes a fatal fault; and the opcode and the length that byte0 gives it. -/

namespace Sys2Proof

/-- A tag selects an opcode exactly when it is that opcode's tag (R52, R62). -/
theorem opcode_instr_eq_some_iff (f : Fields) (op : Opcode) :
    f.instr.opcode = some op ↔ f.tag = op.tag := by
  unfold Fields.instr
  split_ifs with h0 h1 h2 h3 h4 h5 h6
  case neg =>
    have h7 : f.tag = 7 := by bv_omega
    cases op <;> simp [h7, Instr.opcode, Opcode.tag]
  all_goals cases op <;> simp [*, Instr.opcode, Opcode.tag]

theorem opcode_decodePair_eq_some_iff (b0 b1 : Byte) (op : Opcode) :
    (decodePair b0 b1).opcode = some op ↔ tagOf b0 = op.tag :=
  opcode_instr_eq_some_iff (fieldsOf b0 b1) op

/-- The length byte0 gives is that of the opcode the two bytes decode to (R50, R53). -/
theorem lengthOf_of_opcode_decodePair {b0 b1 : Byte} {op : Opcode}
    (h : (decodePair b0 b1).opcode = some op) : lengthOf b0 = op.length := by
  rw [lengthOf, (opcode_decodePair_eq_some_iff b0 b1 op).mp h, Opcode.length]

/-- The length rule by the decoded opcode, illegal tags included (R53). -/
theorem lengthOf_eq_ite_opcode (b0 b1 : Byte) :
    lengthOf b0 = if (decodePair b0 b1).opcode = some .loadConst then 3 else 2 := by
  simp only [opcode_decodePair_eq_some_iff, lengthOf, lengthOfTag, Opcode.tag]

namespace Machine

/-! ## Completing -/

/-- The instruction completes from `s` in `t`: of the state it has changed at most registers and data
memory, and it retires with its own opcode, register and operand (R86). -/
def Completes (i : Instr) (s t : State) : Prop :=
  ∃ op x m out, i.opcode = some op ∧
    t = State.retire { s with x := x, mem := m } op i.reg i.operand out

theorem Completes.trace_eq {i : Instr} {s t : State} (h : Completes i s t) :
    ∃ e, t.trace = s.trace ++ [e] := by
  obtain ⟨op, x, m, out, -, rfl⟩ := h
  exact ⟨_, retire_trace _ op _ _ out⟩

theorem Completes.pc_eq {i : Instr} {s t : State} (h : Completes i s t) :
    ∃ op, i.opcode = some op ∧ t.pc = s.pc + op.length := by
  obtain ⟨op, x, m, out, hop, rfl⟩ := h
  exact ⟨op, hop, retire_pc _ op _ _ out⟩

/-- Every instruction answers a next state, in which it has completed or taken a fatal fault that
changes nothing but the status (R85, R86). -/
theorem exec_cases (i : Instr) (s : State) :
    (∃ t, exec i s = .next t ∧ Completes i s t) ∨ ∃ c, exec i s = .next (s.abort c) := by
  cases i with
  | loadConst r k => exact .inl ⟨_, rfl, .loadConst, _, _, _, rfl, rfl⟩
  | loadMem r a =>
    rcases execLoadMem_cases r a s with ⟨-, hok⟩ | ⟨-, hfault⟩
    · exact .inl ⟨_, hok, .loadMem, _, _, _, rfl, rfl⟩
    · exact .inr ⟨_, hfault⟩
  | storeMem r a =>
    rcases execStoreMem_cases r a s with ⟨-, hok⟩ | ⟨-, hfault⟩
    · exact .inl ⟨_, hok, .storeMem, _, _, _, rfl, rfl⟩
    · exact .inr ⟨_, hfault⟩
  | mod r a =>
    rcases execMod_cases r a s with ⟨-, -, hzero⟩ | ⟨-, -, hok⟩ | ⟨-, hfault⟩
    · exact .inl ⟨_, hzero, .mod, _, _, _, rfl, rfl⟩
    · exact .inl ⟨_, hok, .mod, _, _, _, rfl, rfl⟩
    · exact .inr ⟨_, hfault⟩
  | illegalTag1 r k => exact .inr ⟨_, rfl⟩
  | illegalTag3 r k => exact .inr ⟨_, rfl⟩
  | illegalTag6 r k => exact .inr ⟨_, rfl⟩
  | illegalTag7 r k => exact .inr ⟨_, rfl⟩

/-- An instruction that leaves the run `Running` has completed. -/
theorem completes_of_exec_running {i : Instr} {s t : State} (h : exec i s = .next t)
    (ht : t.status = .running) : Completes i s t := by
  rcases exec_cases i s with ⟨u, hu, hcompletes⟩ | ⟨c, hc⟩
  · obtain rfl := Host.Outcome.next.inj (h.symm.trans hu)
    exact hcompletes
  · obtain rfl := Host.Outcome.next.inj (h.symm.trans hc)
    rw [abort_status] at ht
    cases ht

/-- A step between `Running` states is the completed instruction of the two bytes at `pc` (R88). -/
theorem completes_of_step_running {s t : State} (hs : s.status = .running) (h : step s = .next t)
    (ht : t.status = .running) :
    ∃ b0 b1, s.stream[s.pc]? = some b0 ∧ s.stream[s.pc + 1]? = some b1 ∧
      Completes (decodePair b0 b1) s t := by
  rcases step_next_cases h with ⟨hhalted, -⟩ | ⟨-, -, rfl⟩ | ⟨-, -, -, rfl⟩ |
    ⟨-, -, b0, b1, h0, h1, hexec⟩
  · rw [hs] at hhalted
    cases hhalted
  · rw [halt_status] at ht
    cases ht
  · rw [abort_status] at ht
    cases ht
  · exact ⟨b0, b1, h0, h1, completes_of_exec_running hexec ht⟩

/-- A MOD inside the window with a zero divisor retires with the division-by-zero record (R116). -/
theorem exec_mod_of_zero_divisor (r : RegNum) {a : Operand} {s : State}
    (hlow : s.window.low ≤ effectiveAddress a) (hhigh : effectiveAddress a ≤ s.window.high)
    (hzero : s.mem.read (effectiveAddress a) = 0) :
    exec (.mod r a) s = .next (s.retire .mod r a (.divByZero r (effectiveAddress a))) := by
  have haccess := (canAccess_operand s a).mpr ⟨hlow, hhigh⟩
  rcases execMod_cases r a s with ⟨-, -, hnext⟩ | ⟨-, hne, -⟩ | ⟨hout, -⟩
  · exact hnext
  · exact absurd hzero hne
  · exact absurd haccess (Bool.eq_false_iff.mp hout)

/-- Settles O43: a step that stays `Running` is a completed instruction, whose opcode has the length
byte0 gives; and a MOD with a zero divisor retires like any other. -/
theorem completedStepAdvancesByLength : Obligations.CompletedStepAdvancesByLength := by
  constructor
  · intro s t hs hstep ht
    obtain ⟨b0, b1, h0, h1, hcompletes⟩ := completes_of_step_running hs hstep ht
    obtain ⟨op, hop, hpc⟩ := hcompletes.pc_eq
    rw [← lengthOf_of_opcode_decodePair hop] at hpc
    exact ⟨b0, b1, h0, h1, hcompletes.trace_eq, hpc, lengthOf_eq_ite_opcode b0 b1⟩
  · intro r a s _ hlow hhigh hzero
    exact ⟨_, _, exec_mod_of_zero_divisor r hlow hhigh hzero, retire_trace _ _ _ _ _,
      retire_pc _ _ _ _ _⟩

end Machine
end Sys2Proof
end

-- ==== Reset: the state a run starts from ====
section
/-! The state a run starts from (R146): the two fields it holds as zeros, read cell by cell. The
other fields have their lemmas beside the state's. -/

namespace Sys2Proof.Machine

/-- All sixteen cells of the register file, with the eight that no register field names (R11, R146). -/
theorem start_x_getElem (S : List Byte) (w : Window) (i : Fin 16) : (State.start S w).x[i] = 0 := by
  rw [start_x]
  exact Vector.getElem_replicate i.isLt

/-- Memory that lists no cell reads 0 at every address (R18). -/
theorem read_nil (a : Nat) : Memory.read [] a = 0 := rfl

theorem start_mem_read (S : List Byte) (w : Window) (a : Nat) : (State.start S w).mem.read a = 0 := by
  rw [start_mem, read_nil]

/-- Settles O19: the registers and the memory cell by cell, the other fields as they are set. -/
theorem resetValues : Obligations.ResetValues := by
  intro S w
  exact ⟨start_x_getElem S w, start_mem_read S w, start_pc S w, start_status S w, start_trace S w,
    start_stream S w, start_window S w⟩

end Sys2Proof.Machine
end

-- ==== Codec: every instruction and its bytes ====
section
/-! Decoded instructions against the fields of their bytes (R52, R59, R62): an instruction is its tag,
its register and its operand, `encode` writes those three, and the decoder reads them back. -/

namespace Sys2Proof

/-- The tag of an instruction's row in the opcode table (R52, R62). -/
def Instr.tag : Instr → Tag
  | .loadConst _ _ => 5
  | .loadMem _ _ => 4
  | .storeMem _ _ => 2
  | .mod _ _ => 0
  | .illegalTag1 _ _ => 1
  | .illegalTag3 _ _ => 3
  | .illegalTag6 _ _ => 6
  | .illegalTag7 _ _ => 7

/-! ## The instruction of some fields -/

/-- The opcode map keeps tag, register and operand, whatever the tag. -/
theorem tag_reg_operand_instr (f : Fields) :
    f.instr.tag = f.tag ∧ f.instr.reg = f.reg ∧ f.instr.operand = f.operand := by
  unfold Fields.instr
  split_ifs with h0 h1 h2 h3 h4 h5 h6
  case neg =>
    have h7 : f.tag = 7 := by bv_omega
    exact ⟨h7.symm, rfl, rfl⟩
  all_goals exact ⟨Eq.symm ‹_›, rfl, rfl⟩

theorem tag_decodePair (b0 b1 : Byte) : (decodePair b0 b1).tag = tagOf b0 :=
  (tag_reg_operand_instr (fieldsOf b0 b1)).1

theorem reg_decodePair (b0 b1 : Byte) : (decodePair b0 b1).reg = regOf b0 :=
  (tag_reg_operand_instr (fieldsOf b0 b1)).2.1

theorem operand_decodePair (b0 b1 : Byte) : (decodePair b0 b1).operand = operandOf b0 b1 :=
  (tag_reg_operand_instr (fieldsOf b0 b1)).2.2

/-- Nothing but the three fields makes an instruction. -/
theorem instr_of_own_fields (i : Instr) (length : Nat) :
    Fields.instr ⟨i.tag, i.reg, i.operand, length⟩ = i := by
  cases i <;> rfl

theorem opcode_eq_some_iff_tag (i : Instr) (op : Opcode) : i.opcode = some op ↔ i.tag = op.tag := by
  rw [← instr_of_own_fields i 0, opcode_instr_eq_some_iff, instr_of_own_fields]

/-- The rows without an opcode are those of the four illegal tags (R62). -/
theorem opcode_eq_none_iff_tag (i : Instr) :
    i.opcode = none ↔ i.tag = 1 ∨ i.tag = 3 ∨ i.tag = 6 ∨ i.tag = 7 := by
  cases i <;> simp [Instr.opcode, Instr.tag]

/-! ## The bytes -/

/-- `encode` writes the three fields, and pads to the length of the tag (R53). -/
theorem encode_eq_packPair (i : Instr) :
    ∃ rest, encode i = packPair i.tag i.reg i.operand ++ rest ∧
      (encode i).length = lengthOfTag i.tag := by
  cases i with
  | loadConst r k => exact ⟨[0], rfl, rfl⟩
  | loadMem r a => exact ⟨[], rfl, rfl⟩
  | storeMem r a => exact ⟨[], rfl, rfl⟩
  | mod r a => exact ⟨[], rfl, rfl⟩
  | illegalTag1 r k => exact ⟨[], rfl, rfl⟩
  | illegalTag3 r k => exact ⟨[], rfl, rfl⟩
  | illegalTag6 r k => exact ⟨[], rfl, rfl⟩
  | illegalTag7 r k => exact ⟨[], rfl, rfl⟩

theorem decodeFields_packPair (t : Tag) (r : RegNum) (k : Operand) (rest : List Byte) :
    decodeFields (packPair t r k ++ rest) = .ok ⟨t, r, k, lengthOfTag t⟩ :=
  decodeAt_packPair t r k rest

theorem decode_of_decodeFields {bytes : List Byte} {f : Fields} (h : decodeFields bytes = .ok f) :
    decode bytes = .ok f.instr := by
  rw [decode, h]

/-- The decoder reads an instruction's own fields from its bytes. -/
theorem decodeFields_encode (i : Instr) (rest : List Byte) :
    decodeFields (encode i ++ rest) = .ok ⟨i.tag, i.reg, i.operand, (encode i).length⟩ := by
  obtain ⟨tail, hbytes, hlength⟩ := encode_eq_packPair i
  rw [hlength, hbytes, List.append_assoc, decodeFields_packPair]

theorem decode_encode (i : Instr) (rest : List Byte) : decode (encode i ++ rest) = .ok i := by
  rw [decode_of_decodeFields (decodeFields_encode i rest), instr_of_own_fields]

/-- Settles O2: the fields read back are the instruction's own, and they make the instruction. -/
theorem decodeInvertsEncode : Obligations.DecodeInvertsEncode := by
  intro i rest
  exact ⟨decode_encode i rest, _, decodeFields_encode i rest, rfl, rfl, rfl⟩

/-- Settles O1: the decoder evaluated on each of the ten words. -/
theorem wordsFromTheTableDecode : Obligations.WordsFromTheTableDecode :=
  ⟨by decide, by decide, by decide, by decide, by decide, by decide, by decide, by decide, by decide,
    by decide⟩

end Sys2Proof
end

-- ==== Codec: which triples Encode accepts ====
section
/-! `Encode` inverted (R56): what it says of the arguments that it answered bytes, and the fields the
decoder reads from those bytes. -/

namespace Sys2Proof

theorem encodeTriple_of_reg_out_of_range (op : Opcode) {reg : Int} (a : Int) (h : reg < 0 ∨ 7 < reg) :
    encodeTriple op reg a = .error .reg :=
  if_pos h

theorem operandInRange_loadConst_eq_false_iff (c : Int) :
    Opcode.loadConst.operandInRange c = false ↔ c < -16384 ∨ 16383 < c := by
  rw [← Bool.not_eq_true, operandInRange_loadConst_iff]
  omega

theorem operandInRange_eq_false_iff_of_ne_loadConst {op : Opcode} (hop : op ≠ .loadConst) (a : Int) :
    op.operandInRange a = false ↔ a < 0 ∨ 7 < a := by
  rw [← Bool.not_eq_true, operandInRange_iff_of_ne_loadConst hop]
  omega

/-- Settles O9: each range test fails or passes as its clause says, the register's first. -/
theorem encodeRejectsOutOfRange : Obligations.EncodeRejectsOutOfRange := by
  intro op reg a
  refine ⟨encodeTriple_of_reg_out_of_range op a, ?constOut, ?addrOut, ?const, ?addr⟩
  case constOut =>
    rintro h0 h7 rfl hout
    exact encodeTriple_of_operand_out_of_range h0 h7 ((operandInRange_loadConst_eq_false_iff a).mpr hout)
  case addrOut =>
    intro h0 h7 hop hout
    exact encodeTriple_of_operand_out_of_range h0 h7
      ((operandInRange_eq_false_iff_of_ne_loadConst hop a).mpr hout)
  case const =>
    rintro h0 h7 rfl hlow hhigh
    exact ⟨_, encodeTriple_loadConst h0 h7 hlow hhigh, rfl⟩
  case addr =>
    intro h0 h7 hop ha0 ha7
    exact ⟨_, encodeTriple_of_ne_loadConst hop h0 h7 ha0 ha7, rfl⟩

theorem reg_in_range_of_encodeTriple {op : Opcode} {reg a : Int} {bytes : List Byte}
    (h : encodeTriple op reg a = .ok bytes) : 0 ≤ reg ∧ reg ≤ 7 := by
  by_contra hout
  rw [encodeTriple_of_reg_out_of_range op a (by omega)] at h
  cases h

/-- Bytes from `Encode` of a LOAD_CONST are the C-format of a constant in range. -/
theorem encodeTriple_loadConst_eq_ok {reg c : Int} {bytes : List Byte}
    (h : encodeTriple .loadConst reg c = .ok bytes) :
    -16384 ≤ c ∧ c ≤ 16383 ∧ bytes = packConst (BitVec.ofInt 3 reg) (normaliseConst c) := by
  obtain ⟨h0, h7⟩ := reg_in_range_of_encodeTriple h
  by_cases hc : -16384 ≤ c ∧ c ≤ 16383
  · rw [encodeTriple_loadConst h0 h7 hc.1 hc.2] at h
    exact ⟨hc.1, hc.2, (Except.ok.inj h).symm⟩
  · have hout := (operandInRange_loadConst_eq_false_iff c).mpr (by omega)
    rw [encodeTriple_of_operand_out_of_range h0 h7 hout] at h
    cases h

/-- Bytes from `Encode` of the three others are the M-format of an operand in range. -/
theorem encodeTriple_eq_ok_of_ne_loadConst {op : Opcode} (hop : op ≠ .loadConst) {reg a : Int}
    {bytes : List Byte} (h : encodeTriple op reg a = .ok bytes) :
    0 ≤ a ∧ a ≤ 7 ∧ bytes = packAddr op.tag (BitVec.ofInt 3 reg) (BitVec.ofInt 3 a) := by
  obtain ⟨h0, h7⟩ := reg_in_range_of_encodeTriple h
  by_cases ha : 0 ≤ a ∧ a ≤ 7
  · rw [encodeTriple_of_ne_loadConst hop h0 h7 ha.1 ha.2] at h
    exact ⟨ha.1, ha.2, (Except.ok.inj h).symm⟩
  · have hout := (operandInRange_eq_false_iff_of_ne_loadConst hop a).mpr (by omega)
    rw [encodeTriple_of_operand_out_of_range h0 h7 hout] at h
    cases h

/-- In either format the first two bytes are the pair of the opcode's tag, the register and the operand
mod 1024, and the bytes are as many as the opcode's length (R50, R65). -/
theorem encodeTriple_eq_packPair {op : Opcode} {reg a : Int} {bytes : List Byte}
    (h : encodeTriple op reg a = .ok bytes) :
    ∃ k rest, bytes = packPair op.tag (BitVec.ofInt 3 reg) k ++ rest ∧ (k.toNat : Int) = a % 1024 ∧
      bytes.length = op.length := by
  by_cases hop : op = .loadConst
  · subst hop
    obtain ⟨hlow, -, rfl⟩ := encodeTriple_loadConst_eq_ok h
    exact ⟨_, _, packConst_eq_packPair _ _, toNat_operand_normaliseConst hlow, rfl⟩
  · obtain ⟨ha0, ha7, rfl⟩ := encodeTriple_eq_ok_of_ne_loadConst hop h
    refine ⟨_, [], by rw [packAddr_eq_packPair, List.append_nil], ?_,
      (lengthOfTag_of_ne_loadConst hop).symm⟩
    rw [toNat_operand_setWidth ha0 ha7]
    omega

/-- Settles O6: the opcode map keeps the three fields of the two bytes, and `Encode` writes the tag of
its opcode. -/
theorem tagsSelectOpcodes : Obligations.TagsSelectOpcodes := by
  refine ⟨?illegal, opcode_decodePair_eq_some_iff,
    fun b0 b1 => ⟨reg_decodePair b0 b1, operand_decodePair b0 b1⟩, ?encoded⟩
  case illegal =>
    intro b0 b1
    rw [opcode_eq_none_iff_tag, tag_decodePair]
  case encoded =>
    intro op reg a bytes h
    obtain ⟨k, rest, rfl, -, -⟩ := encodeTriple_eq_packPair h
    refine ⟨_, _, rest, rfl, ?_⟩
    rw [opcode_decodePair_eq_some_iff, tagOf_packByte0]

end Sys2Proof
end

-- ==== Codec: injectivity and well-formed instructions ====
section
/-! What the bytes of `Encode` determine (R66), and the instructions whose bytes it can produce
(log 24). -/

namespace Sys2Proof

/-- What the decoder reads from the bytes `Encode` gives a triple. -/
theorem decode_encodeTriple {op : Opcode} {reg a : Int} {bytes : List Byte}
    (h : encodeTriple op reg a = .ok bytes) :
    ∃ i, decode bytes = .ok i ∧ i.tag = op.tag ∧ i.reg = BitVec.ofInt 3 reg ∧
      (i.operand.toNat : Int) = a % 1024 := by
  obtain ⟨k, rest, rfl, hk, -⟩ := encodeTriple_eq_packPair h
  obtain ⟨htag, hreg, hoperand⟩ :=
    tag_reg_operand_instr ⟨op.tag, BitVec.ofInt 3 reg, k, lengthOfTag op.tag⟩
  exact ⟨_, decode_of_decodeFields (decodeFields_packPair _ _ _ _), htag, hreg, by rw [hoperand, hk]⟩

/-- Each opcode has a tag of its own, since a tag selects at most one opcode (R52). -/
theorem opcode_tag_injective {op op' : Opcode} (h : op.tag = op'.tag) : op = op' := by
  have hself := (opcode_instr_eq_some_iff ⟨op.tag, 0, 0, 0⟩ op).mpr rfl
  have hother := (opcode_instr_eq_some_iff ⟨op.tag, 0, 0, 0⟩ op').mpr h
  exact Option.some.inj (hself.symm.trans hother)

theorem ofInt_three_injective {m n : Int} (hm : 0 ≤ m ∧ m ≤ 7) (hn : 0 ≤ n ∧ n ≤ 7)
    (h : BitVec.ofInt 3 m = BitVec.ofInt 3 n) : m = n := by
  rw [← toNat_ofInt_three hm.1 hm.2, ← toNat_ofInt_three hn.1 hn.2, h]

/-- The three bytes of the C-format hold all fifteen bits of the value (R54). -/
theorem packConst_value_injective {r r' : RegNum} {v v' : BitVec 15}
    (h : packConst r v = packConst r' v') : v = v' := by
  have hbytes := congrArg (List.map BitVec.toNat) h
  simp only [toNat_packConst, List.cons.injEq, and_true] at hbytes
  obtain ⟨h0, h1, h2⟩ := hbytes
  apply BitVec.eq_of_toNat_eq
  omega

/-- Constants in range have distinct 15-bit values (R57). -/
theorem normaliseConst_injective {c c' : Int} (hc : -16384 ≤ c ∧ c ≤ 16383)
    (hc' : -16384 ≤ c' ∧ c' ≤ 16383) (h : normaliseConst c = normaliseConst c') : c = c' := by
  have hv := toNat_normaliseConst hc.1
  rw [h, toNat_normaliseConst hc'.1] at hv
  omega

/-- Two operands of one opcode with the same bytes are equal (R66). -/
theorem encodeTriple_operand_injective {op : Opcode} {reg reg' a a' : Int} {bytes : List Byte}
    (h : encodeTriple op reg a = .ok bytes) (h' : encodeTriple op reg' a' = .ok bytes) : a = a' := by
  by_cases hop : op = .loadConst
  · subst hop
    obtain ⟨hlow, hhigh, rfl⟩ := encodeTriple_loadConst_eq_ok h
    obtain ⟨hlow', hhigh', hbytes⟩ := encodeTriple_loadConst_eq_ok h'
    exact normaliseConst_injective ⟨hlow, hhigh⟩ ⟨hlow', hhigh'⟩ (packConst_value_injective hbytes)
  · obtain ⟨ha0, ha7, -⟩ := encodeTriple_eq_ok_of_ne_loadConst hop h
    obtain ⟨ha0', ha7', -⟩ := encodeTriple_eq_ok_of_ne_loadConst hop h'
    obtain ⟨i, hdecode, -, -, hoperand⟩ := decode_encodeTriple h
    obtain ⟨i', hdecode', -, -, hoperand'⟩ := decode_encodeTriple h'
    obtain rfl := Except.ok.inj (hdecode.symm.trans hdecode')
    omega

/-- Instructions are equal when their three fields are. -/
theorem instr_ext {i j : Instr} (htag : i.tag = j.tag) (hreg : i.reg = j.reg)
    (hoperand : i.operand = j.operand) : i = j := by
  rw [← instr_of_own_fields i 0, htag, hreg, hoperand, instr_of_own_fields]

/-- Settles O12: the decoder gives back opcode and register, the bytes of a known opcode its operand;
and the decoder sees a constant mod 1024 only. -/
theorem encodeIsInjective : Obligations.EncodeIsInjective := by
  constructor
  · intro op op' reg reg' a a' bytes h h'
    obtain ⟨i, hdecode, htag, hreg, -⟩ := decode_encodeTriple h
    obtain ⟨i', hdecode', htag', hreg', -⟩ := decode_encodeTriple h'
    obtain rfl := Except.ok.inj (hdecode.symm.trans hdecode')
    obtain rfl := opcode_tag_injective (htag.symm.trans htag')
    exact ⟨rfl, ofInt_three_injective (reg_in_range_of_encodeTriple h)
      (reg_in_range_of_encodeTriple h') (hreg.symm.trans hreg'), encodeTriple_operand_injective h h'⟩
  · intro reg c c' bytes bytes' hmod h h'
    obtain ⟨i, hdecode, htag, hreg, hoperand⟩ := decode_encodeTriple h
    obtain ⟨i', hdecode', htag', hreg', hoperand'⟩ := decode_encodeTriple h'
    have hsame : i.operand = i'.operand := BitVec.eq_of_toNat_eq (by omega)
    rw [hdecode, hdecode',
      instr_ext (htag.trans htag'.symm) (hreg.trans hreg'.symm) hsame]

/-! ## Well-formed instructions -/

/-- Well formed means: one of the four opcodes, and an M-format operand of three bits (log 24). -/
theorem wellFormed_iff (i : Instr) :
    i.wellFormed = true ↔
      ∃ op, i.opcode = some op ∧ (op ≠ .loadConst → i.operand.toNat ≤ 7) := by
  cases i <;> simp [Instr.wellFormed, Instr.opcode, Instr.operand, Operand.fitsAddressField]

/-- A triple whose bytes are the instruction's has its opcode and a three-bit operand but for
LOAD_CONST. -/
theorem wellFormed_of_encodeTriple {i : Instr} {op : Opcode} {reg a : Int}
    (h : encodeTriple op reg a = .ok (encode i)) : i.wellFormed = true := by
  obtain ⟨j, hdecode, htag, -, hoperand⟩ := decode_encodeTriple h
  have hself := decode_encode i []
  rw [List.append_nil] at hself
  obtain rfl := Except.ok.inj (hself.symm.trans hdecode)
  refine (wellFormed_iff i).mpr ⟨op, (opcode_eq_some_iff_tag i op).mpr htag, fun hop => ?_⟩
  obtain ⟨ha0, ha7, -⟩ := encodeTriple_eq_ok_of_ne_loadConst hop h
  omega

/-- The C-format of a decoded constant, which leaves byte2 at 0 (R54). -/
theorem packConst_normaliseConst_operand (r : RegNum) (k : Operand) :
    packConst r (normaliseConst (k.toNat : Int)) = encode (.loadConst r k) := by
  have hv := toNat_normaliseConst (c := (k.toNat : Int)) (by omega)
  have hlow : (normaliseConst (k.toNat : Int)).extractLsb' 0 10 = k := by
    apply BitVec.eq_of_toNat_eq
    rw [BitVec.extractLsb'_toNat, Nat.shiftRight_zero]
    omega
  have hhigh : (normaliseConst (k.toNat : Int)).extractLsb' 10 5 = 0#5 := by
    apply BitVec.eq_of_toNat_eq
    rw [BitVec.extractLsb'_toNat, Nat.shiftRight_eq_div_pow, BitVec.toNat_ofNat]
    omega
  rw [packConst_eq_packPair, hlow, hhigh]
  rfl

/-- A three-bit operand comes through the M-format whole (R55). -/
theorem setWidth_ofInt_operand {a : Operand} (h : a.toNat ≤ 7) :
    (BitVec.ofInt 3 (a.toNat : Int)).setWidth 10 = a := by
  apply BitVec.eq_of_toNat_eq
  have := toNat_operand_setWidth (a := (a.toNat : Int)) (by omega) (by omega)
  omega

/-- On the four opcodes the two encoders agree where the operand fits. -/
theorem encodeTriple_eq_encode {i : Instr} {op : Opcode} (hop : i.opcode = some op)
    (hfits : op ≠ .loadConst → i.operand.toNat ≤ 7) :
    encodeTriple op i.reg.toNat i.operand.toNat = .ok (encode i) := by
  have hreg : BitVec.ofInt 3 (i.reg.toNat : Int) = i.reg := by
    rw [BitVec.ofInt_natCast, BitVec.ofNat_toNat, BitVec.setWidth_eq]
  by_cases hconst : op = .loadConst
  · subst hconst
    rw [encodeTriple_loadConst (by omega) (by omega) (by omega) (by omega), hreg,
      packConst_normaliseConst_operand]
    exact congrArg (Except.ok ∘ encode) (instr_ext ((opcode_eq_some_iff_tag i _).mp hop).symm rfl rfl)
  · have ha := hfits hconst
    obtain ⟨rest, hbytes, hlength⟩ := encode_eq_packPair i
    rw [(opcode_eq_some_iff_tag i op).mp hop] at hbytes hlength
    have hrest : rest = [] := by
      rw [hbytes, lengthOfTag_of_ne_loadConst hconst] at hlength
      simpa [packPair] using hlength
    rw [encodeTriple_of_ne_loadConst hconst (by omega) (by omega) (by omega) (by omega), hreg,
      packAddr_eq_packPair, setWidth_ofInt_operand ha, hbytes, hrest, List.append_nil]

/-- Settles O3: bytes of a triple decode to its opcode with an operand in range; a well-formed
instruction is encoded from its own fields. -/
theorem wellFormedIsWhatEncodeProduces : Obligations.WellFormedIsWhatEncodeProduces := by
  intro i
  refine ⟨⟨?produced, fun ⟨op, reg, a, h⟩ => wellFormed_of_encodeTriple h⟩, ?same⟩
  case produced =>
    intro hwf
    obtain ⟨op, hop, hfits⟩ := (wellFormed_iff i).mp hwf
    exact ⟨op, _, _, encodeTriple_eq_encode hop hfits⟩
  case same =>
    intro op hop hwf
    obtain ⟨op', hop', hfits⟩ := (wellFormed_iff i).mp hwf
    obtain rfl := Option.some.inj (hop.symm.trans hop')
    exact encodeTriple_eq_encode hop hfits

end Sys2Proof
end

-- ==== Memory: the canonical form ====
section
/-! Memory as data (log 3): in the canonical form the cells determine the list, and no access reaches
past the array (D17). -/

namespace Sys2Proof.Machine

theorem read_cons_same (a : Nat) (v : Cell) (m : Memory) : Memory.read ((a, v) :: m) a = v :=
  if_pos rfl

theorem read_cons_of_ne {a b : Nat} (v : Cell) (m : Memory) (h : a ≠ b) :
    Memory.read ((a, v) :: m) b = m.read b :=
  if_neg h

/-- An address below every listed one is not listed. -/
theorem read_of_below {m : Memory} {a : Nat} (h : ∀ p ∈ m, a < p.1) :
    m.read a = Config.unwrittenCell := by
  induction m with
  | nil => rfl
  | cons p m ih =>
    have hp : p.1 ≠ a := Nat.ne_of_gt (h p (List.mem_cons_self ..))
    rw [read_cons_of_ne p.2 m hp, ih fun q hq => h q (List.mem_cons_of_mem p hq)]

/-- The first pair of a canonical memory is below the others and lists a cell, and the rest is
canonical. -/
theorem wf_cons_iff (a : Nat) (v : Cell) (m : Memory) :
    Memory.wf ((a, v) :: m) ↔
      (∀ p ∈ m, a < p.1) ∧ a < Config.memCells ∧ v ≠ Config.unwrittenCell ∧ m.wf := by
  simp only [Memory.wf, List.pairwise_cons, List.forall_mem_cons]
  tauto

/-- A memory that lists nothing below the second's first pair, or nothing at all, reads otherwise
there. -/
theorem read_ne_of_below {m n : Memory} {a : Nat} {v : Cell} (hn : Memory.wf ((a, v) :: n))
    (hm : ∀ p ∈ m, a < p.1) : m.read a ≠ Memory.read ((a, v) :: n) a := by
  obtain ⟨-, -, hv, -⟩ := (wf_cons_iff a v n).mp hn
  rw [read_of_below hm, read_cons_same]
  exact hv.symm

/-- Two canonical memories that read alike begin at the same address. -/
theorem not_lt_of_read_eq {m n : Memory} {a b : Nat} {v w : Cell} (hm : Memory.wf ((a, v) :: m))
    (hn : Memory.wf ((b, w) :: n))
    (h : ∀ c, Memory.read ((a, v) :: m) c = Memory.read ((b, w) :: n) c) : ¬ a < b := by
  intro hlt
  obtain ⟨hbelow, -⟩ := (wf_cons_iff b w n).mp hn
  exact read_ne_of_below hm (List.forall_mem_cons.mpr ⟨hlt, fun p hp => hlt.trans (hbelow p hp)⟩)
    (h a).symm

/-- Settles O17, by induction on both lists: the first addresses agree, since neither can be below the
other, then the first cells, and what is left reads alike. -/
theorem canonicalMemoriesWithEqualCellsAreEqual :
    Obligations.CanonicalMemoriesWithEqualCellsAreEqual := by
  intro m
  induction m with
  | nil =>
    intro n _ hn h
    cases n with
    | nil => rfl
    | cons q n => exact absurd (h q.1) (read_ne_of_below hn (List.forall_mem_nil _))
  | cons p m ih =>
    intro n hm hn h
    obtain ⟨a, v⟩ := p
    cases n with
    | nil => exact absurd (h a).symm (read_ne_of_below hm (List.forall_mem_nil _))
    | cons q n =>
      obtain ⟨b, w⟩ := q
      obtain rfl : a = b := Nat.le_antisymm
        (not_lt.mp (not_lt_of_read_eq hn hm fun c => (h c).symm)) (not_lt.mp (not_lt_of_read_eq hm hn h))
      obtain ⟨hbelow, -, -, hm'⟩ := (wf_cons_iff a v m).mp hm
      obtain ⟨hbelow', -, -, hn'⟩ := (wf_cons_iff a w n).mp hn
      have hcell : v = w := by simpa only [read_cons_same] using h a
      have hrest : ∀ c, Memory.read m c = Memory.read n c := by
        intro c
        by_cases hc : a = c
        · rw [← hc, read_of_below hbelow, read_of_below hbelow']
        · simpa only [read_cons_of_ne _ _ hc] using h c
      rw [hcell, ih n hm' hn' hrest]

/-- Settles O16: the array's own bound refuses the address. -/
theorem addressesAboveTheArrayAreOutOfBounds : Obligations.AddressesAboveTheArrayAreOutOfBounds := by
  intro s a v ha
  have hout : s.canAccess a = false := (canAccess_eq_false_iff s a).mpr (.inr (.inr ha))
  exact ⟨memRead_of_not_canAccess hout, memWrite_of_not_canAccess v hout⟩

end Sys2Proof.Machine
end

-- ==== Execute: one rule for the four opcodes ====
section
/-! The execute part of a step (R84 to R87): with its access let through, an instruction of any opcode
applies the outcome R24's table gives it and retires; else it takes its fatal fault. -/

namespace Sys2Proof.Machine

/-- The state with the one register or data cell written that an outcome names (R24). -/
def Effect.apply : Effect → State → State
  | .regWrite r v, s => s.writeReg r v
  | .memWrite a v, s => { s with mem := s.mem.write a v }
  | .divByZero _ _, s => s

/-- The outcome R24's table gives an instruction in a state. -/
def State.outcome (s : State) (op : Opcode) (r : RegNum) (k : Operand) : Effect :=
  tableOutcome op r k (s.readReg r) (s.mem.read (effectiveAddress k))

/-- The state an instruction of the opcode completes in (R86, R87). -/
def State.complete (s : State) (op : Opcode) (r : RegNum) (k : Operand) : State :=
  ((s.outcome op r k).apply s).retire op r k (s.outcome op r k)

section
variable (s : State) (op : Opcode) (r : RegNum) (k : Operand)

/-! ## What completing leaves and appends -/

/-- An outcome is about one register or one cell only. -/
theorem apply_frame (out : Effect) :
    (out.apply s).pc = s.pc ∧ (out.apply s).status = s.status ∧ (out.apply s).trace = s.trace ∧
      (out.apply s).stream = s.stream ∧ (out.apply s).window = s.window := by
  cases out <;> exact ⟨rfl, rfl, rfl, rfl, rfl⟩

@[simp] theorem complete_pc : (s.complete op r k).pc = s.pc + op.length := by
  obtain ⟨hpc, -⟩ := apply_frame s (s.outcome op r k)
  rw [State.complete, retire_pc, hpc]

@[simp] theorem complete_status : (s.complete op r k).status = s.status := by
  obtain ⟨-, hstatus, -⟩ := apply_frame s (s.outcome op r k)
  rw [State.complete, retire_status, hstatus]

@[simp] theorem complete_trace : (s.complete op r k).trace =
    s.trace ++ [{ pc := s.pc, op := op, reg := r, operand := k, outcome := s.outcome op r k }] := by
  obtain ⟨hpc, -, htrace, -⟩ := apply_frame s (s.outcome op r k)
  rw [State.complete, retire_trace, hpc, htrace]

@[simp] theorem complete_stream : (s.complete op r k).stream = s.stream := by
  obtain ⟨-, -, -, hstream, -⟩ := apply_frame s (s.outcome op r k)
  rw [State.complete, retire_stream, hstream]

@[simp] theorem complete_window : (s.complete op r k).window = s.window := by
  obtain ⟨-, -, -, -, hwindow⟩ := apply_frame s (s.outcome op r k)
  rw [State.complete, retire_window, hwindow]

theorem complete_x : (s.complete op r k).x = ((s.outcome op r k).apply s).x := rfl

theorem complete_mem : (s.complete op r k).mem = ((s.outcome op r k).apply s).mem := rfl

/-- The opcode's length by the rule the statements use (R50). -/
theorem length_eq_ite : op.length = if op = .loadConst then 3 else 2 := by
  by_cases hop : op = .loadConst
  · rw [if_pos hop, hop, length_loadConst]
  · rw [if_neg hop, Opcode.length, lengthOfTag_of_ne_loadConst hop]

theorem completed_complete :
    Completed s (s.complete op r k)
      { pc := s.pc, op := op, reg := r, operand := k, outcome := s.outcome op r k } where
  trace := complete_trace s op r k
  pc := by rw [complete_pc, length_eq_ite]
  status := complete_status s op r k
  stream := complete_stream s op r k
  window := complete_window s op r k

/-! ## The register or the cell it writes -/

theorem complete_of_outcome {out : Effect} (h : s.outcome op r k = out) :
    s.complete op r k = (out.apply s).retire op r k out := by
  rw [State.complete, h]

/-- Where the outcome is a register write, the register has the value. -/
theorem readReg_complete {v : Cell} (h : s.outcome op r k = .regWrite r v) :
    (s.complete op r k).readReg r = v := by
  rw [readReg_congr (complete_x s op r k), h]
  exact readReg_writeReg_same s r v

/-- All but STORE_MEM write their register or nothing (R84). -/
theorem outcome_of_ne_storeMem {op : Opcode} (hop : op ≠ .storeMem) :
    (∃ v, s.outcome op r k = .regWrite r v) ∨
      s.outcome op r k = .divByZero r (effectiveAddress k) := by
  cases op with
  | loadConst => exact .inl ⟨_, rfl⟩
  | loadMem => exact .inl ⟨_, rfl⟩
  | storeMem => exact absurd rfl hop
  | mod =>
    by_cases hzero : s.mem.read (effectiveAddress k) = 0
    · exact .inr (if_pos hzero)
    · exact .inl ⟨_, if_neg hzero⟩

theorem complete_mem_of_ne_storeMem {op : Opcode} (hop : op ≠ .storeMem) :
    (s.complete op r k).mem = s.mem := by
  rcases outcome_of_ne_storeMem s r k hop with ⟨v, h⟩ | h <;> rw [complete_mem, h] <;> rfl

theorem complete_onlyRegChanged {op : Opcode} (hop : op ≠ .storeMem) :
    OnlyRegChanged s (s.complete op r k) r := by
  rcases outcome_of_ne_storeMem s r k hop with ⟨v, h⟩ | h <;> rw [complete_of_outcome s op r k h]
  · obtain ⟨hothers, hupper⟩ := writeReg_onlyRegChanged s r v
    exact ⟨hothers, hupper⟩
  · exact ⟨fun q _ => rfl, fun i _ => rfl⟩

theorem complete_storeMem_x : (s.complete .storeMem r k).x = s.x := rfl

theorem complete_storeMem_mem :
    (s.complete .storeMem r k).mem = s.mem.write (effectiveAddress k) (s.readReg r) := rfl

theorem outcome_mod_of_zero (h : s.mem.read (effectiveAddress k) = 0) :
    s.outcome .mod r k = .divByZero r (effectiveAddress k) :=
  if_pos h

theorem outcome_mod_of_ne_zero (h : s.mem.read (effectiveAddress k) ≠ 0) :
    s.outcome .mod r k = .regWrite r (s.readReg r % s.mem.read (effectiveAddress k)) :=
  if_neg h

end

/-! ## The execute part -/

/-- With its access let through, an instruction completes (R84, R86). -/
theorem exec_of_opcode {i : Instr} {op : Opcode} {s : State} (hop : i.opcode = some op)
    (haccess : op ≠ .loadConst → s.canAccess (effectiveAddress i.operand) = true) :
    exec i s = .next (s.complete op i.reg i.operand) := by
  cases i with
  | loadConst r k => obtain rfl := Option.some.inj hop; rfl
  | loadMem r a =>
    obtain rfl := Option.some.inj hop
    rcases execLoadMem_cases r a s with ⟨-, h⟩ | ⟨hout, -⟩
    · exact h
    · exact absurd (haccess (by decide)) (Bool.eq_false_iff.mp hout)
  | storeMem r a =>
    obtain rfl := Option.some.inj hop
    rcases execStoreMem_cases r a s with ⟨-, h⟩ | ⟨hout, -⟩
    · exact h
    · exact absurd (haccess (by decide)) (Bool.eq_false_iff.mp hout)
  | mod r a =>
    obtain rfl := Option.some.inj hop
    rcases execMod_cases r a s with ⟨-, hzero, h⟩ | ⟨-, hne, h⟩ | ⟨hout, -⟩
    · exact h.trans (congrArg _ (complete_of_outcome s _ r a (outcome_mod_of_zero s r a hzero)).symm)
    · exact h.trans (congrArg _ (complete_of_outcome s _ r a (outcome_mod_of_ne_zero s r a hne)).symm)
    · exact absurd (haccess (by decide)) (Bool.eq_false_iff.mp hout)
  | illegalTag1 r k => cases hop
  | illegalTag3 r k => cases hop
  | illegalTag6 r k => cases hop
  | illegalTag7 r k => cases hop

/-- With its access refused, an instruction takes `OutOfBounds` (R126). -/
theorem exec_of_refused {i : Instr} {op : Opcode} {s : State} (hop : i.opcode = some op)
    (hne : op ≠ .loadConst) (hout : s.canAccess (effectiveAddress i.operand) = false) :
    exec i s = .next (s.abort (.outOfBounds (effectiveAddress i.operand))) := by
  cases i with
  | loadConst r k => exact absurd (Option.some.inj hop).symm hne
  | loadMem r a =>
    rcases execLoadMem_cases r a s with ⟨hin, -⟩ | ⟨-, h⟩
    · exact absurd hin (Bool.eq_false_iff.mp hout)
    · exact h
  | storeMem r a =>
    rcases execStoreMem_cases r a s with ⟨hin, -⟩ | ⟨-, h⟩
    · exact absurd hin (Bool.eq_false_iff.mp hout)
    · exact h
  | mod r a =>
    rcases execMod_cases r a s with ⟨hin, -⟩ | ⟨hin, -⟩ | ⟨-, h⟩
    · exact absurd hin (Bool.eq_false_iff.mp hout)
    · exact absurd hin (Bool.eq_false_iff.mp hout)
    · exact h
  | illegalTag1 r k => cases hop
  | illegalTag3 r k => cases hop
  | illegalTag6 r k => cases hop
  | illegalTag7 r k => cases hop

/-- An illegal tag takes `IllegalOpcode` with that tag (R83, R130). -/
theorem exec_of_no_opcode {i : Instr} (s : State) (h : i.opcode = none) :
    exec i s = .next (s.abort (.illegalOpcode i.tag)) := by
  cases i with
  | loadConst r k => cases h
  | loadMem r a => cases h
  | storeMem r a => cases h
  | mod r a => cases h
  | illegalTag1 r k => rfl
  | illegalTag3 r k => rfl
  | illegalTag6 r k => rfl
  | illegalTag7 r k => rfl

end Sys2Proof.Machine
end

-- ==== Execute: the instructions' obligations ====
section
/-! Each instruction's effect and frame (R100 to R119), from the one rule of the execute part. -/

namespace Sys2Proof.Machine

/-- Settles O25: LOAD_CONST makes no access. -/
theorem loadConstWritesItsOperand : Obligations.LoadConstWritesItsOperand := by
  intro r k s
  refine ⟨_, exec_of_opcode rfl (absurd rfl), readReg_complete s .loadConst r k rfl,
    complete_onlyRegChanged s r k (by decide), fun b => ?_, completed_complete s .loadConst r k⟩
  rw [Instr.reg, Instr.operand, complete_mem_of_ne_storeMem s r k (by decide)]

/-- Settles O26. -/
theorem loadMemCopiesTheCell : Obligations.LoadMemCopiesTheCell := by
  intro r a s hlow hhigh
  refine ⟨_, exec_of_opcode rfl fun _ => (canAccess_operand s a).mpr ⟨hlow, hhigh⟩,
    readReg_complete s .loadMem r a rfl, complete_onlyRegChanged s r a (by decide), fun b => ?_,
    completed_complete s .loadMem r a⟩
  rw [Instr.reg, Instr.operand, complete_mem_of_ne_storeMem s r a (by decide)]

/-- Settles O27: the cell and its frame are the read-after-write rules of memory. -/
theorem storeMemCopiesTheRegister : Obligations.StoreMemCopiesTheRegister := by
  intro r a s hlow hhigh
  exact ⟨_, exec_of_opcode rfl fun _ => (canAccess_operand s a).mpr ⟨hlow, hhigh⟩,
    read_write_same s.mem _ _, fun b hb => read_write_of_ne s.mem _ hb, complete_storeMem_x s r a,
    completed_complete s .storeMem r a⟩

/-- Settles O28: the number written is the remainder, by the quotient and remainder of naturals. -/
theorem modWritesTheRemainder : Obligations.ModWritesTheRemainder := by
  intro r a s hlow hhigh hne
  have hout := outcome_mod_of_ne_zero s r a hne
  have hreg := readReg_complete s .mod r a hout
  refine ⟨s.complete .mod r a, exec_of_opcode rfl fun _ => (canAccess_operand s a).mpr ⟨hlow, hhigh⟩,
    ?below, ?notAbove, ⟨s.readReg r / s.mem.read (effectiveAddress a), ?division⟩,
    complete_onlyRegChanged s r a (by decide), fun b => ?mem, ?completed⟩
  case below => rw [hreg]; exact Nat.mod_lt _ (Nat.pos_of_ne_zero hne)
  case notAbove => rw [hreg]; exact Nat.mod_le _ _
  case division => rw [hreg, Nat.div_add_mod']
  case mem => rw [complete_mem_of_ne_storeMem s r a (by decide)]
  case completed =>
    rw [hreg, ← hout]
    exact completed_complete s .mod r a

/-- Settles O29: the outcome names no register and no cell to write. -/
theorem modByZeroIsRecorded : Obligations.ModByZeroIsRecorded := by
  intro r a s hlow hhigh hzero
  have hout := outcome_mod_of_zero s r a hzero
  have hcompleted := completed_complete s .mod r a
  rw [complete_of_outcome s .mod r a hout, hout] at hcompleted
  exact ⟨_, exec_mod_of_zero_divisor r hlow hhigh hzero, rfl, fun b => rfl, hcompleted⟩

/-- Settles O30: an address outside the window is refused, whichever instruction makes the access. -/
theorem accessOutsideTheWindowAborts : Obligations.AccessOutsideTheWindowAborts := by
  intro r a s h
  have hout := not_canAccess_of_outside h
  exact ⟨exec_of_refused (i := .loadMem r a) rfl (by decide) hout,
    exec_of_refused (i := .storeMem r a) rfl (by decide) hout,
    exec_of_refused (i := .mod r a) rfl (by decide) hout⟩

/-- Settles O31: the four rows have no opcode. -/
theorem illegalTagsAbort : Obligations.IllegalTagsAbort := by
  intro r k s
  exact ⟨exec_of_no_opcode (i := .illegalTag1 r k) s rfl, exec_of_no_opcode (i := .illegalTag3 r k) s rfl,
    exec_of_no_opcode (i := .illegalTag6 r k) s rfl, exec_of_no_opcode (i := .illegalTag7 r k) s rfl⟩

/-! ## Two instructions in a row -/

/-- What a MOD leaves of the window, of memory and in its register (R115, R116). -/
theorem exec_mod_effect {r : RegNum} {a : Operand} {s t : State} (h : exec (.mod r a) s = .next t) :
    t.window = s.window ∧ t.mem = s.mem ∧
      (s.canAccess (effectiveAddress a) = true → s.mem.read (effectiveAddress a) ≠ 0 →
        t.readReg r = s.readReg r % s.mem.read (effectiveAddress a)) := by
  cases haccess : s.canAccess (effectiveAddress a) with
  | false =>
    obtain rfl := Host.Outcome.next.inj ((exec_of_refused rfl (by decide) haccess).symm.trans h)
    exact ⟨rfl, rfl, fun hin => absurd hin (by decide)⟩
  | true =>
    obtain rfl := Host.Outcome.next.inj ((exec_of_opcode rfl fun _ => haccess).symm.trans h)
    exact ⟨complete_window s .mod r a, complete_mem_of_ne_storeMem s r a (by decide),
      fun _ hne => readReg_complete s .mod r a (outcome_mod_of_ne_zero s r a hne)⟩

theorem writeReg_own_value (s : State) (r : RegNum) : s.writeReg r (s.readReg r) = s := by
  simp [State.writeReg, State.readReg]

/-- A MOD whose register is its own remainder already leaves the registers. -/
theorem exec_mod_x_of_reduced {r : RegNum} {a : Operand} {s t : State}
    (h : exec (.mod r a) s = .next t)
    (hreduced : s.canAccess (effectiveAddress a) = true → s.mem.read (effectiveAddress a) ≠ 0 →
      s.readReg r % s.mem.read (effectiveAddress a) = s.readReg r) : t.x = s.x := by
  rcases execMod_cases r a s with ⟨-, -, hnext⟩ | ⟨hin, hne, hnext⟩ | ⟨-, hnext⟩ <;>
    obtain rfl := Host.Outcome.next.inj (hnext.symm.trans h)
  · rfl
  · rw [remainder, hreduced hin hne, State.retireRegWrite, writeReg_own_value, retire_x]
  · rfl

/-- Settles O32: after the first MOD the register is below the divisor, which has not changed. -/
theorem modIsIdempotent : Obligations.ModIsIdempotent := by
  intro r a s t u hfirst hsecond
  obtain ⟨hwindow, hmem, hreg⟩ := exec_mod_effect hfirst
  have haccess : t.canAccess (effectiveAddress a) = s.canAccess (effectiveAddress a) := by
    rw [State.canAccess, State.canAccess, hwindow]
  refine exec_mod_x_of_reduced hsecond fun hin hne => ?_
  rw [haccess] at hin
  rw [hmem] at hne ⊢
  rw [hreg hin hne, Nat.mod_mod]

theorem effectiveAddress_injective {a b : Operand} (h : effectiveAddress a = effectiveAddress b) :
    a = b :=
  BitVec.eq_of_toNat_eq h

/-- Settles O33: the store leaves the window, and the load reads the cell after the write. -/
theorem loadAfterStore : Obligations.LoadAfterStore := by
  intro r q a b s halow hahigh hblow hbhigh
  have hstore : exec (.storeMem r a) s = .next (s.complete .storeMem r a) :=
    exec_of_opcode rfl fun _ => (canAccess_operand s a).mpr ⟨halow, hahigh⟩
  have hload : exec (.loadMem q b) (s.complete .storeMem r a) =
      .next ((s.complete .storeMem r a).complete .loadMem q b) :=
    exec_of_opcode rfl fun _ => (canAccess_operand _ b).mpr ⟨hblow, hbhigh⟩
  refine ⟨_, _, hstore, hload, ?_⟩
  rw [readReg_complete _ .loadMem q b rfl, complete_storeMem_mem]
  split_ifs with hba
  · rw [hba, read_write_same]
  · exact read_write_of_ne _ _ fun h => hba (effectiveAddress_injective h)

end Sys2Proof.Machine
end

-- ==== Step: the step as a relation ====
section
/-! One step as six rules (R88, R133), each with what makes it apply and the state it gives: `step`
answers a next state exactly where one of them does. -/

namespace Sys2Proof.Machine

/-- Past the halt test, `b0` and `b1` are the bytes a step from `s` fetches (R81, R82). -/
structure State.Fetches (s : State) (b0 b1 : Byte) : Prop where
  running  : s.status = .running
  inWindow : s.pc ≤ s.window.high
  byte0    : s.stream[s.pc]? = some b0
  byte1    : s.stream[s.pc + 1]? = some b1

/-- The rules of a step (R88), in the order of R133. -/
inductive Steps (s : State) : State → Prop
  /-- No step is taken from `Halted` (log 8). -/
  | stay (hhalted : s.status = .halted) : Steps s s
  /-- The halt test holds (R81). -/
  | halt (hrunning : s.status = .running) (hend : s.window.high < s.pc ∨ s.stream.length ≤ s.pc) :
      Steps s s.halt
  /-- byte1 lies past the end of the stream (R131). -/
  | missingByte1 (hrunning : s.status = .running) (hin : s.pc ≤ s.window.high)
      (hlength : s.pc + 1 = s.stream.length) : Steps s (s.abort (.fetchOutOfStream (s.pc + 1)))
  /-- The tag selects no opcode (R130). -/
  | illegal {b0 b1 : Byte} (hfetch : s.Fetches b0 b1) (hnone : (decodePair b0 b1).opcode = none) :
      Steps s (s.abort (.illegalOpcode (tagOf b0)))
  /-- The access is refused (R126). -/
  | outside {b0 b1 : Byte} {op : Opcode} (hfetch : s.Fetches b0 b1) (htag : tagOf b0 = op.tag)
      (hop : op ≠ .loadConst) (hout : s.canAccess (effectiveAddress (operandOf b0 b1)) = false) :
      Steps s (s.abort (.outOfBounds (effectiveAddress (operandOf b0 b1))))
  /-- The instruction completes (R86). -/
  | complete {b0 b1 : Byte} {op : Opcode} (hfetch : s.Fetches b0 b1) (htag : tagOf b0 = op.tag)
      (haccess : op ≠ .loadConst → s.canAccess (effectiveAddress (operandOf b0 b1)) = true) :
      Steps s (s.complete op (regOf b0) (operandOf b0 b1))

theorem haltTest_eq_true_iff (s : State) :
    s.haltTest = true ↔ s.window.high < s.pc ∨ s.stream.length ≤ s.pc := by
  simp [State.haltTest]

theorem haltTest_eq_false_iff (s : State) :
    s.haltTest = false ↔ s.pc ≤ s.window.high ∧ s.pc < s.stream.length := by
  simp [State.haltTest]

theorem State.Fetches.lt_length {s : State} {b0 b1 : Byte} (h : s.Fetches b0 b1) :
    s.pc + 1 < s.stream.length :=
  (List.getElem?_eq_some_iff.mp h.byte1).1

theorem State.Fetches.haltTest {s : State} {b0 b1 : Byte} (h : s.Fetches b0 b1) :
    s.haltTest = false :=
  (haltTest_eq_false_iff s).mpr ⟨h.inWindow, by have := h.lt_length; omega⟩

/-- The fetched bytes run as the instruction they decode to (R88). -/
theorem State.Fetches.step_eq {s : State} {b0 b1 : Byte} (h : s.Fetches b0 b1) :
    step s = exec (decodePair b0 b1) s := by
  have hpair : s.fetchPair = .ok (b0, b1) := by
    rw [State.fetchPair, fetchByte_some s _ _ h.byte0, fetchByte_some s _ _ h.byte1]
  simp [step, State.fetchPhase, h.running, h.haltTest, hpair]

/-- The execute part of a step answers by one of the three rules that have fetched both bytes. -/
theorem steps_of_exec {s t : State} {b0 b1 : Byte} (hfetch : s.Fetches b0 b1)
    (h : exec (decodePair b0 b1) s = .next t) : Steps s t := by
  cases hopcode : (decodePair b0 b1).opcode with
  | none =>
    obtain rfl := Host.Outcome.next.inj ((exec_of_no_opcode s hopcode).symm.trans h)
    rw [tag_decodePair]
    exact .illegal hfetch hopcode
  | some op =>
    have htag := (opcode_decodePair_eq_some_iff b0 b1 op).mp hopcode
    have hoperand := operand_decodePair b0 b1
    by_cases haccess :
        op ≠ .loadConst → s.canAccess (effectiveAddress (decodePair b0 b1).operand) = true
    · obtain rfl := Host.Outcome.next.inj ((exec_of_opcode hopcode haccess).symm.trans h)
      rw [hoperand] at haccess ⊢
      rw [reg_decodePair]
      exact .complete hfetch htag haccess
    · obtain ⟨hop, hrefused⟩ := Classical.not_imp.mp haccess
      have hout := Bool.eq_false_iff.mpr hrefused
      obtain rfl := Host.Outcome.next.inj ((exec_of_refused hopcode hop hout).symm.trans h)
      rw [hoperand] at hout ⊢
      exact .outside hfetch htag hop hout

theorem steps_of_step {s t : State} (h : step s = .next t) : Steps s t := by
  rcases step_next_cases h with ⟨hhalted, rfl⟩ | ⟨hrunning, hend, rfl⟩ |
    ⟨hrunning, hpast, hlength, rfl⟩ | ⟨hrunning, hpast, b0, b1, h0, h1, hexec⟩
  · exact .stay hhalted
  · exact .halt hrunning ((haltTest_eq_true_iff s).mp hend)
  · exact .missingByte1 hrunning ((haltTest_eq_false_iff s).mp hpast).1 hlength
  · exact steps_of_exec ⟨hrunning, ((haltTest_eq_false_iff s).mp hpast).1, h0, h1⟩ hexec

theorem step_of_steps {s t : State} (h : Steps s t) : step s = .next t := by
  cases h with
  | stay hhalted => exact step_halted s hhalted
  | halt hrunning hend =>
    simp [step, State.fetchPhase, hrunning, (haltTest_eq_true_iff s).mpr hend]
  | missingByte1 hrunning hin hlength =>
    have hpast : s.haltTest = false := (haltTest_eq_false_iff s).mpr ⟨hin, by omega⟩
    rcases fetchPair_cases s hpast with ⟨b0, b1, -, h1, -⟩ | ⟨-, hpair⟩
    · rw [List.getElem?_eq_none (by omega)] at h1
      cases h1
    · simp [step, State.fetchPhase, hrunning, hpast, hpair]
  | @illegal b0 b1 hfetch hnone =>
    rw [hfetch.step_eq, exec_of_no_opcode s hnone, tag_decodePair]
  | @outside b0 b1 op hfetch htag hop hout =>
    rw [← operand_decodePair] at hout ⊢
    rw [hfetch.step_eq, exec_of_refused ((opcode_decodePair_eq_some_iff b0 b1 op).mpr htag) hop hout]
  | @complete b0 b1 op hfetch htag haccess =>
    rw [← operand_decodePair] at haccess ⊢
    rw [← reg_decodePair b0 b1, hfetch.step_eq,
      exec_of_opcode ((opcode_decodePair_eq_some_iff b0 b1 op).mpr htag) haccess]

theorem step_eq_next_iff {s t : State} : step s = .next t ↔ Steps s t :=
  ⟨steps_of_step, step_of_steps⟩

/-- Every instruction answers a next state, whether it completes or takes a fatal fault. -/
theorem exec_answers (i : Instr) (s : State) : ∃ t, exec i s = .next t := by
  rcases exec_cases i s with ⟨t, h, -⟩ | ⟨c, h⟩
  · exact ⟨t, h⟩
  · exact ⟨_, h⟩

/-- Some rule applies to every `Running` state (R88). -/
theorem steps_of_running {s : State} (h : s.status = .running) : ∃ t, Steps s t := by
  rcases step_running_cases s h with ⟨-, hnext⟩ | ⟨-, -, hnext⟩ | ⟨-, b0, b1, -, -, hexec⟩
  · exact ⟨_, steps_of_step hnext⟩
  · exact ⟨_, steps_of_step hnext⟩
  · obtain ⟨t, hnext⟩ := exec_answers (decodePair b0 b1) s
    exact ⟨t, steps_of_step (hexec.trans hnext)⟩

/-- Settles O49. -/
theorem runningMachineNeverStops : Obligations.RunningMachineNeverStops := by
  refine ⟨exec_answers, fun s h => ?_⟩
  obtain ⟨t, hsteps⟩ := steps_of_running h
  exact ⟨t, step_of_steps hsteps⟩

/-- A rule that leaves the run `Running` is that of a completed instruction. -/
theorem Steps.complete_of_running {s t : State} (h : Steps s t) (ht : t.status = .running) :
    ∃ b0 b1 op, s.Fetches b0 b1 ∧ tagOf b0 = op.tag ∧
      (op ≠ .loadConst → s.canAccess (effectiveAddress (operandOf b0 b1)) = true) ∧
      t = s.complete op (regOf b0) (operandOf b0 b1) := by
  cases h with
  | stay hhalted => cases hhalted.symm.trans ht
  | halt _ _ => cases ht
  | missingByte1 _ _ _ => cases ht
  | illegal _ _ => cases ht
  | outside _ _ _ _ => cases ht
  | complete hfetch htag haccess => exact ⟨_, _, _, hfetch, htag, haccess, rfl⟩

/-- Settles O59: a step that stays `Running` completes, and the record is the completed
instruction's. -/
theorem completedStepRecordsItsInstruction : Obligations.CompletedStepRecordsItsInstruction := by
  intro s t _ hstep ht
  obtain ⟨b0, b1, op, hfetch, htag, -, rfl⟩ := (steps_of_step hstep).complete_of_running ht
  exact ⟨b0, b1, op, hfetch.byte0, hfetch.byte1, htag, complete_trace s op _ _⟩

end Sys2Proof.Machine
end

-- ==== Step: fetch and the end of the run ====
section
/-! The halt test, the fetch and the terminal statuses (R81, R82, R91, R22), and the instruction that
the bytes at `pc` run as. -/

namespace Sys2Proof.Machine

/-- Settles O18: the window is no argument of the lookup. -/
theorem fetchReadsTheStream : Obligations.FetchReadsTheStream := by
  intro s a
  exact ⟨fun b => fetchByte_some s a b, fun h => fetchByte_none s a (List.getElem?_eq_none h),
    fun w => rfl⟩

/-- Settles O23. -/
theorem terminalStatusStays : Obligations.TerminalStatusStays :=
  ⟨step_halted, step_aborted⟩

/-- Settles O21: the rule of the halt test; past it no rule ends in `Halted`; and the start of a run on
a degenerate input meets the halt test. -/
theorem haltTestEndsTheRun : Obligations.HaltTestEndsTheRun := by
  refine ⟨fun s hrunning hend => step_of_steps (.halt hrunning hend), ?past, ?start⟩
  case past =>
    intro s t hrunning hin hlength hstep
    cases steps_of_step hstep with
    | stay hhalted => exact absurd (hhalted.symm.trans hrunning) (by decide)
    | halt _ hend => omega
    | missingByte1 _ _ _ => exact Status.noConfusion
    | illegal _ _ => exact Status.noConfusion
    | outside _ _ _ _ => exact Status.noConfusion
    | complete _ _ _ =>
      rw [complete_status, hrunning]
      exact Status.noConfusion
  case start =>
    intro S w h
    refine step_of_steps (.halt rfl ?_)
    rw [start_pc, start_window, start_stream]
    rcases h with rfl | hlength | hempty
    · exact .inr (Nat.zero_le _)
    · exact .inr hlength
    · exact .inl hempty

/-- Settles O22. -/
theorem missingByteOneAborts : Obligations.MissingByteOneAborts :=
  fun _ hrunning hin hlength => step_of_steps (.missingByte1 hrunning hin hlength)

/-- Settles O24: LOAD_CONST needs its two bytes in the stream only; past them, the halt test holds where
the stream ends before byte2. -/
theorem onlyByteZeroIsBoundedByTheWindow : Obligations.OnlyByteZeroIsBoundedByTheWindow := by
  intro s b0 b1 hrunning hin h0 h1 htag
  have hsteps : Steps s (s.complete .loadConst (regOf b0) (operandOf b0 b1)) :=
    .complete ⟨hrunning, hin, h0, h1⟩ htag (absurd rfl)
  refine ⟨_, step_of_steps hsteps, readReg_complete s .loadConst _ _ rfl, complete_pc s _ _ _,
    (complete_status s _ _ _).trans hrunning, fun hlength => step_of_steps (.halt ?_ (.inr ?_))⟩
  · rw [complete_status, hrunning]
  · rw [complete_stream, complete_pc, length_loadConst, ← hlength]
    omega

/-- The bytes from an offset decode exactly where two stand there, to the instruction of those two. -/
theorem decode_drop_eq_ok_iff {S : List Byte} {a : Nat} {i : Instr} :
    decode (S.drop a) = .ok i ↔
      ∃ b0 b1, S[a]? = some b0 ∧ S[a + 1]? = some b1 ∧ i = decodePair b0 b1 := by
  constructor
  · intro h
    rcases hdrop : S.drop a with _ | ⟨b0, _ | ⟨b1, rest⟩⟩ <;> rw [hdrop] at h
    · cases h
    · cases h
    · have h0 : (S.drop a)[0]? = some b0 := by rw [hdrop]; rfl
      have h1 : (S.drop a)[1]? = some b1 := by rw [hdrop]; rfl
      rw [List.getElem?_drop] at h0 h1
      exact ⟨b0, b1, h0, h1, (Except.ok.inj h).symm⟩
  · rintro ⟨b0, b1, h0, h1, rfl⟩
    exact decode_of_decodeFields (decodeAt_of_two_bytes h0 h1)

/-- Settles O20: the bytes that decode are those the step fetches. -/
theorem stepRunsDecodedInstruction : Obligations.StepRunsDecodedInstruction := by
  intro s i hrunning hin hdecode
  obtain ⟨b0, b1, h0, h1, rfl⟩ := decode_drop_eq_ok_iff.mp hdecode
  exact State.Fetches.step_eq ⟨hrunning, hin, h0, h1⟩

/-! ## Bytes of `Encode` at `pc` -/

/-- What a step fetches where the bytes of a triple stand at `pc`: its opcode's tag, its register and its
operand mod 1024, and the rest of the stream one length of the opcode further (R68, R74). -/
theorem fetches_encoded {op : Opcode} {reg a : Int} {bytes rest : List Byte} {s : State}
    (hencode : encodeTriple op reg a = .ok bytes) (hrunning : s.status = .running)
    (hin : s.pc ≤ s.window.high) (hdrop : s.stream.drop s.pc = bytes ++ rest) :
    ∃ b0 b1, s.Fetches b0 b1 ∧ tagOf b0 = op.tag ∧ regOf b0 = BitVec.ofInt 3 reg ∧
      ((operandOf b0 b1).toNat : Int) = a % 1024 ∧ s.stream.drop (s.pc + op.length) = rest := by
  obtain ⟨k, tail, hbytes, hk, hlength⟩ := encodeTriple_eq_packPair hencode
  have hdecode : decode (s.stream.drop s.pc) =
      .ok (Fields.instr ⟨op.tag, BitVec.ofInt 3 reg, k, lengthOfTag op.tag⟩) := by
    rw [hdrop, hbytes, List.append_assoc]
    exact decode_of_decodeFields (decodeFields_packPair _ _ _ _)
  obtain ⟨b0, b1, h0, h1, hinstr⟩ := decode_drop_eq_ok_iff.mp hdecode
  obtain ⟨htag, hreg, hoperand⟩ :=
    tag_reg_operand_instr ⟨op.tag, BitVec.ofInt 3 reg, k, lengthOfTag op.tag⟩
  rw [hinstr] at htag hreg hoperand
  rw [tag_decodePair] at htag
  rw [reg_decodePair] at hreg
  rw [operand_decodePair] at hoperand
  refine ⟨b0, b1, ⟨hrunning, hin, h0, h1⟩, htag, hreg, by rw [hoperand, hk], ?_⟩
  rw [← List.drop_drop, hdrop, ← hlength, List.drop_left]

/-- Settles O35. -/
theorem assembledTripleRunsAsItsInstruction : Obligations.AssembledTripleRunsAsItsInstruction := by
  intro op reg a bytes rest s hencode hrunning hin hdrop
  obtain ⟨b0, b1, hfetch, htag, hreg, hoperand, -⟩ := fetches_encoded hencode hrunning hin hdrop
  obtain ⟨h0, h7⟩ := reg_in_range_of_encodeTriple hencode
  refine ⟨decodePair b0 b1, (opcode_decodePair_eq_some_iff b0 b1 op).mpr htag, ?_, ?_, hfetch.step_eq⟩
  · rw [reg_decodePair, hreg, toNat_ofInt_three h0 h7]
  · rw [operand_decodePair, hoperand]

/-- Settles O34: LOAD_CONST completes with the decoded constant and its three bytes behind it. -/
theorem assembledConstantIsLoadedModulo1024 : Obligations.AssembledConstantIsLoadedModulo1024 := by
  intro reg c bytes rest s hencode hrunning hin hdrop
  obtain ⟨b0, b1, hfetch, htag, hreg, hoperand, hrest⟩ :=
    fetches_encoded hencode hrunning hin hdrop
  refine ⟨_, step_of_steps (.complete hfetch htag (absurd rfl)), ?_, ?_⟩
  · rw [← hreg, readReg_complete s .loadConst _ _ rfl]
    exact hoperand
  · rw [complete_stream, complete_pc, hrest]

end Sys2Proof.Machine
end

-- ==== Step: what a step changes, and its status ====
section
/-! The frame of a step (R19, R20, R23, R84, R135) and the status it leaves (R133), by the rules. -/

namespace Sys2Proof.Machine

/-- Settles O44: the three rules of fatal faults change the status alone, and no other rule aborts. -/
theorem faultsArePrecise : Obligations.FaultsArePrecise := by
  intro s t c hstep ht
  cases steps_of_step hstep with
  | stay hhalted => cases hhalted.symm.trans ht
  | halt _ _ => cases ht
  | missingByte1 hrunning _ _ => exact ⟨hrunning, by rw [← ht]; rfl⟩
  | illegal hfetch _ => exact ⟨hfetch.running, by rw [← ht]; rfl⟩
  | outside hfetch _ _ _ => exact ⟨hfetch.running, by rw [← ht]; rfl⟩
  | complete hfetch _ _ =>
    rw [complete_status, hfetch.running] at ht
    cases ht

/-- The stream and the window are inputs (R19, R20). -/
theorem Steps.inputs_eq {s t : State} (h : Steps s t) : t.stream = s.stream ∧ t.window = s.window := by
  cases h with
  | stay _ => exact ⟨rfl, rfl⟩
  | halt _ _ => exact ⟨rfl, rfl⟩
  | missingByte1 _ _ _ => exact ⟨rfl, rfl⟩
  | illegal _ _ => exact ⟨rfl, rfl⟩
  | outside _ _ _ _ => exact ⟨rfl, rfl⟩
  | complete _ _ _ => exact ⟨complete_stream s _ _ _, complete_window s _ _ _⟩

/-- Either the step completes an instruction, or of the whole state only the status may change. -/
theorem Steps.complete_or_status {s t : State} (h : Steps s t) :
    (∃ b0 b1 op, s.Fetches b0 b1 ∧ t = s.complete op (regOf b0) (operandOf b0 b1)) ∨
      t = { s with status := t.status } := by
  cases h with
  | stay _ => exact .inr rfl
  | halt _ _ => exact .inr rfl
  | missingByte1 _ _ _ => exact .inr rfl
  | illegal _ _ => exact .inr rfl
  | outside _ _ _ _ => exact .inr rfl
  | complete hfetch _ _ => exact .inl ⟨_, _, _, hfetch, rfl⟩

/-- Settles O42: only a completed instruction moves `pc` or appends, and it appends one record. -/
theorem inputsNeverWrittenTraceOnlyGrows : Obligations.InputsNeverWrittenTraceOnlyGrows := by
  intro s t hstep
  have hsteps := steps_of_step hstep
  obtain ⟨hstream, hwindow⟩ := hsteps.inputs_eq
  refine ⟨hstream, hwindow, ?_⟩
  rcases hsteps.complete_or_status with ⟨b0, b1, op, -, rfl⟩ | hsame
  · exact ⟨by rw [complete_pc]; exact Nat.le_add_right _ _, _, complete_trace s op _ _, le_rfl⟩
  · rw [hsame]
    exact ⟨le_rfl, [], (List.append_nil _).symm, Nat.zero_le _⟩

/-- Every opcode but STORE_MEM has one of the three tags that leave memory (R52, R84). -/
theorem tag_of_ne_storeMem {op : Opcode} (hop : op ≠ .storeMem) :
    op.tag = 5 ∨ op.tag = 4 ∨ op.tag = 0 := by
  cases op with
  | loadConst => exact .inl rfl
  | loadMem => exact .inr (.inl rfl)
  | storeMem => exact absurd rfl hop
  | mod => exact .inr (.inr rfl)

/-- Settles O46: a completed STORE_MEM writes its cell, inside the window, another completed
instruction at most its register, and every other rule neither. -/
theorem stepChangesAtMostOneCell : Obligations.StepChangesAtMostOneCell := by
  intro s t hstep
  have hsteps := steps_of_step hstep
  by_cases ht : t.status = .running
  · obtain ⟨b0, b1, op, hfetch, htag, haccess, rfl⟩ := hsteps.complete_of_running ht
    refine .inr ⟨ht, b0, b1, hfetch.byte0, hfetch.byte1, ?_⟩
    by_cases hop : op = .storeMem
    · subst hop
      obtain ⟨hlow, hhigh⟩ := (canAccess_operand s _).mp (haccess (by decide))
      exact .inr ⟨htag, complete_storeMem_x s _ _, hlow, hhigh,
        fun a ha => read_write_of_ne s.mem _ ha⟩
    · rw [htag]
      exact .inl ⟨tag_of_ne_storeMem hop, complete_mem_of_ne_storeMem s _ _ hop,
        complete_onlyRegChanged s _ _ hop⟩
  · rcases hsteps.complete_or_status with ⟨b0, b1, op, hfetch, rfl⟩ | hsame
    · exact absurd ((complete_status s op _ _).trans hfetch.running) ht
    · refine .inl ⟨ht, ?_⟩
      rw [hsame]
      exact ⟨rfl, rfl⟩

/-! ## The status after a step -/

/-- No opcode has one of the four illegal tags (R62). -/
theorem opcode_tag_legal (op : Opcode) : ¬ (op.tag = 1 ∨ op.tag = 3 ∨ op.tag = 6 ∨ op.tag = 7) := by
  cases op <;> decide

theorem opcode_tag_eq_five_iff (op : Opcode) : op.tag = 5 ↔ op = .loadConst :=
  ⟨fun h => opcode_tag_injective h, fun h => h ▸ rfl⟩

/-- A decoded operand is refused exactly outside the window (R31, R35). -/
theorem canAccess_operand_eq_false_iff (s : State) (k : Operand) :
    s.canAccess (effectiveAddress k) = false ↔ k.toNat < s.window.low ∨ s.window.high < k.toNat := by
  rw [← Bool.not_eq_true, canAccess_operand, effectiveAddress]
  omega

/-- Settles O45: each rule's own conditions are a clause of the priority order. -/
theorem faultPriority : Obligations.FaultPriority := by
  intro s hs
  obtain ⟨t, hsteps⟩ := steps_of_running hs
  refine ⟨t, step_of_steps hsteps, ?_⟩
  cases hsteps with
  | stay hhalted => cases hhalted.symm.trans hs
  | halt _ hend => exact .inl ⟨hend, rfl⟩
  | missingByte1 _ hin hlength => exact .inr (.inl ⟨hin, hlength, rfl⟩)
  | illegal hfetch hnone =>
    refine .inr (.inr ⟨hfetch.inWindow, _, _, hfetch.byte0, hfetch.byte1, ?_⟩)
    rw [opcode_eq_none_iff_tag, tag_decodePair] at hnone
    rw [if_pos hnone, abort_status]
  | @outside b0 b1 op hfetch htag hop hout =>
    refine .inr (.inr ⟨hfetch.inWindow, b0, b1, hfetch.byte0, hfetch.byte1, ?_⟩)
    rw [htag, if_neg (opcode_tag_legal op), if_pos, abort_status, effectiveAddress]
    rw [Ne, opcode_tag_eq_five_iff]
    exact ⟨hop, (canAccess_operand_eq_false_iff s _).mp hout⟩
  | @complete b0 b1 op hfetch htag haccess =>
    refine .inr (.inr ⟨hfetch.inWindow, b0, b1, hfetch.byte0, hfetch.byte1, ?_⟩)
    rw [htag, if_neg (opcode_tag_legal op), if_neg, complete_status, hs]
    rw [Ne, opcode_tag_eq_five_iff, ← canAccess_operand_eq_false_iff]
    rintro ⟨hop, hout⟩
    exact absurd (haccess hop) (Bool.eq_false_iff.mp hout)

end Sys2Proof.Machine
end

-- ==== Step: what a step reads ====
section
/-! Non-interference (R11, R23, R39): a part of the state that no rule reads can hold anything. Every
rule's conditions hold of the changed state too, and what the rule gives changes alike. -/

namespace Sys2Proof.Machine

/-- A change of the state that no rule of a step can see: it keeps what the conditions of the rules
read, and does not interfere with what the rules write. -/
structure Invisible (s : State) (change : State → State) : Prop where
  status   : (change s).status = s.status
  pc       : (change s).pc = s.pc
  window   : (change s).window = s.window
  length   : (change s).stream.length = s.stream.length
  byte0    : (change s).stream[s.pc]? = s.stream[s.pc]?
  byte1    : (change s).stream[s.pc + 1]? = s.stream[s.pc + 1]?
  halt     : change s.halt = (change s).halt
  abort    : ∀ c, change (s.abort c) = (change s).abort c
  complete : ∀ op r k, change (s.complete op r k) = (change s).complete op r k

theorem Invisible.fetches {s : State} {change : State → State} (h : Invisible s change)
    {b0 b1 : Byte} (hfetch : s.Fetches b0 b1) : (change s).Fetches b0 b1 where
  running := by rw [h.status, hfetch.running]
  inWindow := by rw [h.pc, h.window]; exact hfetch.inWindow
  byte0 := by rw [h.pc, h.byte0, hfetch.byte0]
  byte1 := by rw [h.pc, h.byte1, hfetch.byte1]

theorem Invisible.canAccess {s : State} {change : State → State} (h : Invisible s change) (a : Nat) :
    (change s).canAccess a = s.canAccess a := by
  rw [State.canAccess, State.canAccess, h.window]

/-- An invisible change before the step is the same change after it. -/
theorem Invisible.steps {s t : State} {change : State → State} (h : Invisible s change)
    (hsteps : Steps s t) : Steps (change s) (change t) := by
  cases hsteps with
  | stay hhalted => exact .stay (h.status.trans hhalted)
  | halt hrunning hend =>
    rw [h.halt]
    exact .halt (h.status.trans hrunning) (by rwa [h.window, h.pc, h.length])
  | missingByte1 hrunning hin hlength =>
    rw [h.abort, ← h.pc]
    exact .missingByte1 (h.status.trans hrunning) (by rwa [h.pc, h.window]) (by rwa [h.pc, h.length])
  | illegal hfetch hnone =>
    rw [h.abort]
    exact .illegal (h.fetches hfetch) hnone
  | outside hfetch htag hop hout =>
    rw [h.abort]
    exact .outside (h.fetches hfetch) htag hop ((h.canAccess _).trans hout)
  | complete hfetch htag haccess =>
    rw [h.complete]
    exact .complete (h.fetches hfetch) htag fun hop => (h.canAccess _).trans (haccess hop)

theorem Invisible.step_eq {s t : State} {change : State → State} (h : Invisible s change)
    (hstep : step s = .next t) : step (change s) = .next (change t) :=
  step_eq_next_iff.mpr (h.steps (step_eq_next_iff.mp hstep))

/-- The state with another byte at an offset of the stream. -/
def State.withStreamByte (j : Nat) (b : Byte) (s : State) : State :=
  { s with stream := s.stream.set j b }

/-- The state with older records before its trace. -/
def State.withOlderTrace (old : List Record) (s : State) : State := { s with trace := old ++ s.trace }

/-- The state with another value in one register cell. -/
def State.withCell (i : Fin 16) (v : Cell) (s : State) : State := { s with x := s.x.set i v }

/-- Completing after a change that keeps the values read is the change after completing, where the
change passes over retiring and over every write. -/
theorem complete_comm {s : State} {change : State → State} {op : Opcode} {r : RegNum} {k : Operand}
    (hreg : (change s).readReg r = s.readReg r) (hmem : (change s).mem = s.mem)
    (happly : ∀ out : Effect, change ((out.apply s).retire op r k out) =
      (out.apply (change s)).retire op r k out) :
    change (s.complete op r k) = (change s).complete op r k := by
  have hout : (change s).outcome op r k = s.outcome op r k := by
    rw [State.outcome, State.outcome, hreg, hmem]
  rw [State.complete, State.complete, hout, happly]

theorem withStreamByte_invisible {s : State} {j : Nat} (b : Byte) (hj0 : j ≠ s.pc)
    (hj1 : j ≠ s.pc + 1) : Invisible s (State.withStreamByte j b) where
  status := rfl
  pc := rfl
  window := rfl
  length := List.length_set
  byte0 := List.getElem?_set_ne hj0
  byte1 := List.getElem?_set_ne hj1
  halt := rfl
  abort _ := rfl
  complete _ _ _ := complete_comm rfl rfl fun out => by cases out <;> rfl

/-- Settles O50. -/
theorem stepReadsTwoBytesOfTheStream : Obligations.StepReadsTwoBytesOfTheStream :=
  fun _ _ _ b hj0 hj1 hstep => (withStreamByte_invisible b hj0 hj1).step_eq hstep

/-- A record appended after older ones is appended to all of them. -/
theorem withOlderTrace_retire (old : List Record) (s : State) (op : Opcode) (r : RegNum) (k : Operand)
    (out : Effect) :
    (s.retire op r k out).withOlderTrace old = (s.withOlderTrace old).retire op r k out := by
  simp [State.withOlderTrace, State.retire]

theorem withOlderTrace_invisible (old : List Record) (s : State) :
    Invisible s (State.withOlderTrace old) where
  status := rfl
  pc := rfl
  window := rfl
  length := rfl
  byte0 := rfl
  byte1 := rfl
  halt := rfl
  abort _ := rfl
  complete _ _ _ := complete_comm rfl rfl fun out => by
    rw [withOlderTrace_retire]
    cases out <;> rfl

/-- Settles O51. -/
theorem traceIsNeverRead : Obligations.TraceIsNeverRead :=
  fun s _ old hstep => (withOlderTrace_invisible old s).step_eq hstep

/-- A register field names none of the upper cells, so a read does not see them (R11). -/
theorem readReg_withCell {i : Fin 16} (hi : 8 ≤ i.val) (v : Cell) (s : State) (r : RegNum) :
    (s.withCell i v).readReg r = s.readReg r := by
  have hne : i.val ≠ (regIndex r).val := (Nat.lt_of_lt_of_le (regIndex_lt_eight r) hi).ne'
  exact Vector.getElem_set_ne i.isLt (regIndex r).isLt hne

/-- A write to a register and one to an upper cell do not interfere (R11). -/
theorem withCell_writeReg {i : Fin 16} (hi : 8 ≤ i.val) (v : Cell) (s : State) (r : RegNum) (w : Cell) :
    (s.writeReg r w).withCell i v = (s.withCell i v).writeReg r w := by
  have hne : (regIndex r).val ≠ i.val := (Nat.lt_of_lt_of_le (regIndex_lt_eight r) hi).ne
  simp only [State.withCell, State.writeReg, Vector.set_comm _ _ hne]

theorem withCell_invisible {i : Fin 16} (hi : 8 ≤ i.val) (v : Cell) (s : State) :
    Invisible s (State.withCell i v) where
  status := rfl
  pc := rfl
  window := rfl
  length := rfl
  byte0 := rfl
  byte1 := rfl
  halt := rfl
  abort _ := rfl
  complete op r k := complete_comm (readReg_withCell hi v s r) rfl fun out => by
    cases out with
    | regWrite q w => exact congrArg (State.retire · op r k _) (withCell_writeReg hi v s q w)
    | memWrite a w => rfl
    | divByZero q a => rfl

/-- A completed instruction keeps the upper cells (R11). -/
theorem complete_upper (s : State) (op : Opcode) (r : RegNum) (k : Operand) {i : Fin 16}
    (hi : 8 ≤ i.val) : (s.complete op r k).x[i] = s.x[i] := by
  by_cases hop : op = .storeMem
  · rw [hop, complete_storeMem_x]
  · exact (complete_onlyRegChanged s r k hop).upper i hi

/-- Settles O52. -/
theorem upperRegistersAreUnreachable : Obligations.UpperRegistersAreUnreachable := by
  intro s t i v hi hstep
  refine ⟨?_, (withCell_invisible hi v s).step_eq hstep⟩
  rcases (steps_of_step hstep).complete_or_status with ⟨b0, b1, op, -, rfl⟩ | hsame
  · exact complete_upper s op _ _ hi
  · rw [hsame]

end Sys2Proof.Machine
end

-- ==== Invariant: the values of registers and cells ====
section
/-! The values invariant (R11, R12): it holds where a run starts, and every outcome R24's table gives
keeps it. -/

namespace Sys2Proof.Machine

/-- Settles O36: every register and every cell is 0. -/
theorem valuesHoldAtStart : Obligations.ValuesHoldAtStart := by
  have hstart (S : List Byte) (w : Window) : (State.start S w).ValuesOk :=
    { regsBounded := fun i => by rw [start_x_getElem]; exact Nat.zero_le _
      cellsBounded := fun a => by rw [start_mem_read]; exact Nat.zero_le _
      upperRegsZero := fun i _ => start_x_getElem S w i
      memCanonical := reset_mem_wf }
  exact ⟨hstart, hstart _ _⟩

/-- The invariant is about registers and memory only. -/
theorem State.ValuesOk.of_same {s t : State} (h : s.ValuesOk) (hx : t.x = s.x) (hmem : t.mem = s.mem) :
    t.ValuesOk where
  regsBounded := by rw [hx]; exact h.regsBounded
  cellsBounded := by rw [hmem]; exact h.cellsBounded
  upperRegsZero := by rw [hx]; exact h.upperRegsZero
  memCanonical := by rw [hmem]; exact h.memCanonical

theorem State.ValuesOk.writeReg {s : State} (h : s.ValuesOk) (r : RegNum) {v : Cell} (hv : v ≤ 1023) :
    (s.writeReg r v).ValuesOk where
  regsBounded i := by
    simp only [writeReg_x, Fin.getElem_fin, Vector.getElem_set]
    split_ifs
    · exact hv
    · exact h.regsBounded i
  cellsBounded := h.cellsBounded
  upperRegsZero i hi := (writeReg_upper s r v i hi).trans (h.upperRegsZero i hi)
  memCanonical := h.memCanonical

theorem State.ValuesOk.writeMem {s : State} (h : s.ValuesOk) {a : Nat} {v : Cell}
    (ha : a < Config.memCells) (hv : v ≤ 1023) :
    State.ValuesOk { s with mem := s.mem.write a v } where
  regsBounded := h.regsBounded
  cellsBounded b := by
    rw [read_write]
    split_ifs
    · exact hv
    · exact h.cellsBounded b
  upperRegsZero := h.upperRegsZero
  memCanonical := write_keeps_wf s.mem a v h.memCanonical ha

/-- A value the table writes to a register is a decoded constant, a cell, or a remainder, which is not
above its dividend (R118). -/
theorem State.ValuesOk.outcome_le {s : State} (h : s.ValuesOk) {op : Opcode} {r q : RegNum}
    {k : Operand} {v : Cell} (hout : s.outcome op r k = .regWrite q v) : v ≤ 1023 := by
  cases op with
  | loadConst =>
    obtain ⟨rfl, rfl⟩ := Effect.regWrite.inj hout
    exact Nat.le_of_lt_succ k.isLt
  | loadMem =>
    obtain ⟨rfl, rfl⟩ := Effect.regWrite.inj hout
    exact h.cellsBounded _
  | storeMem => cases hout
  | mod =>
    by_cases hzero : s.mem.read (effectiveAddress k) = 0
    · cases (outcome_mod_of_zero s r k hzero).symm.trans hout
    · obtain ⟨rfl, rfl⟩ := Effect.regWrite.inj ((outcome_mod_of_ne_zero s r k hzero).symm.trans hout)
      exact (Nat.mod_le _ _).trans (h.regsBounded _)

theorem State.ValuesOk.complete {s : State} (h : s.ValuesOk) (op : Opcode) (r : RegNum) (k : Operand) :
    (s.complete op r k).ValuesOk := by
  by_cases hop : op = .storeMem
  · subst hop
    exact (h.writeMem (a := effectiveAddress k) k.isLt (h.regsBounded (regIndex r))).of_same rfl rfl
  · rcases outcome_of_ne_storeMem s r k hop with ⟨v, hout⟩ | hout <;>
      rw [complete_of_outcome s op r k hout]
    · exact (h.writeReg r (h.outcome_le hout)).of_same rfl rfl
    · exact h.of_same rfl rfl

/-- Settles O37. -/
theorem stepKeepsValues : Obligations.StepKeepsValues := by
  intro s t h hstep
  rcases (steps_of_step hstep).complete_or_status with ⟨b0, b1, op, -, rfl⟩ | hsame
  · exact h.complete op _ _
  · rw [hsame]
    exact h.of_same rfl rfl

end Sys2Proof.Machine
end

-- ==== Invariant: the straight line of the trace ====
section
/-! The control invariant (R16, R22, R92): the trace is the straight line of the stream's instructions
up to `pc`, and the status is justified by what stands there. -/

namespace Sys2Proof.Machine

/-- Settles O38: no record, `pc` at `window.low`, and a status that needs no reason. -/
theorem controlHoldsAtStart : Obligations.ControlHoldsAtStart := by
  have hstart (S : List Byte) (w : Window) : (State.start S w).ControlOk :=
    ⟨rfl, List.forall_mem_nil _, .inl rfl, trivial⟩
  exact ⟨hstart, hstart _ _⟩

/-- A record at the end of the line makes it longer by its opcode's length (R86, R92). -/
theorem chained_append {p q : Nat} {es : List Record} (h : chained p es q) {e : Record} (he : e.pc = q) :
    chained p (es ++ [e]) (q + e.op.length) := by
  induction es generalizing p with
  | nil =>
    obtain rfl : p = q := h
    exact ⟨he, rfl⟩
  | cons f es ih =>
    obtain ⟨hf, hrest⟩ := h
    exact ⟨hf, ih hrest⟩

theorem State.Fetches.instrAt_eq {s : State} {b0 b1 : Byte} (h : s.Fetches b0 b1) :
    instrAt s.stream s.pc = some (decodePair b0 b1) := by
  rw [instrAt, decode_drop_eq_ok_iff.mpr ⟨b0, b1, h.byte0, h.byte1, rfl⟩]

theorem opcode_length_le_three (op : Opcode) : op.length ≤ 3 := by
  cases op <;> decide

/-- The record a completed instruction appends names it (R24). -/
theorem State.Fetches.names {s : State} {b0 b1 : Byte} {op : Opcode} (h : s.Fetches b0 b1)
    (htag : tagOf b0 = op.tag) (out : Effect) :
    Record.names s.stream s.window
      { pc := s.pc, op := op, reg := regOf b0, operand := operandOf b0 b1, outcome := out } :=
  ⟨h.inWindow, decodePair b0 b1, h.instrAt_eq, (opcode_decodePair_eq_some_iff b0 b1 op).mpr htag,
    reg_decodePair b0 b1, operand_decodePair b0 b1⟩

theorem State.ControlOk.complete {s : State} (h : s.ControlOk) {b0 b1 : Byte} {op : Opcode}
    (hfetch : s.Fetches b0 b1) (htag : tagOf b0 = op.tag) :
    (s.complete op (regOf b0) (operandOf b0 b1)).ControlOk where
  straightLine := by
    rw [complete_window, complete_trace, complete_pc]
    exact chained_append h.straightLine rfl
  recordsNamed e he := by
    rw [complete_trace, List.mem_append, List.mem_singleton] at he
    rw [complete_stream, complete_window]
    rcases he with hold | rfl
    · exact h.recordsNamed e hold
    · exact hfetch.names htag _
  pcBounded := by
    have hin := hfetch.inWindow
    have hlength := hfetch.lt_length
    have hop := opcode_length_le_three op
    rw [complete_pc, complete_window, complete_stream]
    omega
  status := by
    rw [State.statusJustified, complete_status, hfetch.running]
    trivial

/-- A change of the status alone keeps all but its justification. -/
theorem State.ControlOk.withStatus {s t : State} (h : s.ControlOk)
    (hsame : t = { s with status := t.status }) (hstatus : t.statusJustified) : t.ControlOk := by
  rw [hsame] at hstatus ⊢
  exact ⟨h.straightLine, h.recordsNamed, h.pcBounded, hstatus⟩

/-- Settles O39: each rule that ends the run justifies the status it sets. -/
theorem stepKeepsControl : Obligations.StepKeepsControl := by
  intro s t h hstep
  cases steps_of_step hstep with
  | stay _ => exact h
  | halt _ hend => exact h.withStatus rfl hend
  | missingByte1 _ hin hlength => exact h.withStatus rfl ⟨hin, rfl, hlength⟩
  | @illegal b0 b1 hfetch hnone =>
    exact h.withStatus rfl
      ⟨hfetch.inWindow, decodePair b0 b1, hfetch.instrAt_eq, hnone, b0, hfetch.byte0, rfl⟩
  | @outside b0 b1 op hfetch htag hop hout =>
    exact h.withStatus rfl
      ⟨hfetch.inWindow, decodePair b0 b1, op, hfetch.instrAt_eq,
        (opcode_decodePair_eq_some_iff b0 b1 op).mpr htag, hop, by rw [operand_decodePair],
        (canAccess_operand_eq_false_iff s _).mp hout⟩
  | complete hfetch htag _ => exact h.complete hfetch htag

end Sys2Proof.Machine
end

-- ==== Invariant: the trace accounts for the data ====
section
/-! The data invariant (R13, R24, R43): registers and cells hold what the last record that wrote them
says, and every record's outcome is the one R24's table gives it. -/

namespace Sys2Proof.Machine

/-- Settles O40: with no record, every register and every cell reads 0. -/
theorem traceExplainsStart : Obligations.TraceExplainsStart := by
  have hstart (S : List Byte) (w : Window) : (State.start S w).TraceExplains :=
    { registers := readReg_start S w
      cells := start_mem_read S w
      outcomes := fun before e after h => by cases before <;> cases h }
  exact ⟨hstart, hstart _ _⟩

theorem lastRegWrite_append (tr : List Record) (e : Record) (r : RegNum) :
    lastRegWrite (tr ++ [e]) r = e.regAfter r (lastRegWrite tr r) := by
  rw [lastRegWrite, List.foldl_concat, lastRegWrite]

theorem lastMemWrite_append (tr : List Record) (e : Record) (a : Nat) :
    lastMemWrite (tr ++ [e]) a = e.cellAfter a (lastMemWrite tr a) := by
  rw [lastMemWrite, List.foldl_concat, lastMemWrite]

/-- What applying an outcome does to a register is what a record of it says (R24). -/
theorem readReg_apply (e : Record) (s : State) (r : RegNum) :
    (e.outcome.apply s).readReg r = e.regAfter r (s.readReg r) := by
  unfold Record.regAfter
  cases e.outcome with
  | regWrite q v =>
    simp only [Effect.apply, readReg_writeReg, eq_comm (a := r)]
  | memWrite a v => rfl
  | divByZero q a => rfl

/-- What applying an outcome does to a data cell is what a record of it says (R24). -/
theorem read_apply (e : Record) (s : State) (a : Nat) :
    (e.outcome.apply s).mem.read a = e.cellAfter a (s.mem.read a) := by
  unfold Record.cellAfter
  cases e.outcome with
  | regWrite q v => rfl
  | memWrite b v =>
    simp only [Effect.apply, read_write, eq_comm (a := a)]
  | divByZero q b => rfl

/-- In a state the trace accounts for, the table reads the values of the trace. -/
theorem State.TraceExplains.outcome_eq {s : State} (h : s.TraceExplains) (op : Opcode) (r : RegNum)
    (k : Operand) : s.outcome op r k =
      tableOutcome op r k (lastRegWrite s.trace r) (lastMemWrite s.trace (effectiveAddress k)) := by
  rw [State.outcome, h.registers, h.cells]

theorem State.TraceExplains.complete {s : State} (h : s.TraceExplains) (op : Opcode) (r : RegNum)
    (k : Operand) : (s.complete op r k).TraceExplains where
  registers q := by
    rw [complete_trace, lastRegWrite_append, ← h.registers, ← readReg_apply,
      readReg_congr (complete_x s op r k)]
  cells a := by
    rw [complete_trace, lastMemWrite_append, ← h.cells, ← read_apply, complete_mem]
  outcomes before e after hsplit := by
    rw [complete_trace] at hsplit
    rcases List.eq_nil_or_concat after with rfl | ⟨after', last, rfl⟩
    · obtain ⟨hbefore, he⟩ := List.append_inj' hsplit rfl
      obtain rfl := List.singleton_inj.mp he
      rw [← hbefore, h.outcome_eq]
      rfl
    · have hsplit' : s.trace ++ _ = (before ++ e :: after') ++ [last] :=
        hsplit.trans (by rw [List.concat_eq_append, List.append_assoc, List.cons_append])
      exact h.outcomes before e after' (List.append_inj' hsplit' rfl).1

/-- Settles O41: a completed instruction's record is that of the outcome it applied; no other rule
writes or records. -/
theorem stepKeepsTraceExplaining : Obligations.StepKeepsTraceExplaining := by
  intro s t h hstep
  rcases (steps_of_step hstep).complete_or_status with ⟨b0, b1, op, -, rfl⟩ | hsame
  · exact h.complete op _ _
  · rw [hsame]
    exact ⟨h.registers, h.cells, h.outcomes⟩

end Sys2Proof.Machine
end

-- ==== Run: the end of every run and its outputs ====
section
/-! Whole runs (R80, R90, R94): the bound of R90 falls at every completed instruction, and what every
step keeps, every run keeps. -/

namespace Sys2Proof.Machine

/-- A run that has ended takes no step (R80). -/
theorem runSteps_of_not_running {s : State} (h : s.status ≠ .running) (n : Nat) : s.runSteps n = s := by
  cases n with
  | zero => rfl
  | succ n =>
    unfold State.runSteps
    split
    next => rfl
    next => rfl
    next hrunning => exact absurd hrunning h

/-- From `Running` a run goes on from the next state (R80). -/
theorem runSteps_succ {s t : State} (h : s.status = .running) (hstep : step s = .next t) (n : Nat) :
    s.runSteps (n + 1) = t.runSteps n := by
  rw [State.runSteps, h, hstep]

/-- What every step keeps, a run of any length keeps. -/
theorem runSteps_induction {P : State → Prop} (hkeep : ∀ s t, P s → step s = .next t → P t) {s : State}
    (hs : P s) (n : Nat) : P (s.runSteps n) := by
  induction n generalizing s with
  | zero => exact hs
  | succ n ih =>
    by_cases hrunning : s.status = .running
    · obtain ⟨t, hsteps⟩ := steps_of_running hrunning
      have hstep := step_of_steps hsteps
      rw [runSteps_succ hrunning hstep]
      exact ih (hkeep s t hs hstep)
    · rwa [runSteps_of_not_running hrunning]

theorem two_le_opcode_length (op : Opcode) : 2 ≤ op.length := by
  cases op <;> decide

/-- A completed instruction takes one off the bound, since it advances by two bytes at least (R90). -/
theorem stepBound_complete_lt {s : State} {b0 b1 : Byte} (hfetch : s.Fetches b0 b1) (op : Opcode)
    (r : RegNum) (k : Operand) : (s.complete op r k).stepBound < s.stepBound := by
  have hin := hfetch.inWindow
  have hlength := hfetch.lt_length
  have hop := two_le_opcode_length op
  rw [State.stepBound, State.stepBound, complete_window, complete_stream, complete_pc]
  omega

/-- A step that stays `Running` takes one off the bound. -/
theorem stepBound_lt_of_running {s t : State} (hsteps : Steps s t) (ht : t.status = .running) :
    t.stepBound < s.stepBound := by
  obtain ⟨b0, b1, op, hfetch, -, -, rfl⟩ := hsteps.complete_of_running ht
  exact stepBound_complete_lt hfetch op _ _

/-- More steps than the bound are enough for a run to end (R90). -/
theorem runSteps_ends {s : State} {n : Nat} (h : s.stepBound < n) : (s.runSteps n).status ≠ .running := by
  induction n generalizing s with
  | zero => exact absurd h (Nat.not_lt_zero _)
  | succ n ih =>
    by_cases hrunning : s.status = .running
    · obtain ⟨t, hsteps⟩ := steps_of_running hrunning
      rw [runSteps_succ hrunning (step_of_steps hsteps)]
      by_cases ht : t.status = .running
      · exact ih (by have := stepBound_lt_of_running hsteps ht; omega)
      · rwa [runSteps_of_not_running ht]
    · rwa [runSteps_of_not_running hrunning]

/-- A step adds at most as many records as it takes off the bound. -/
theorem Steps.trace_length_add_stepBound_le {s t : State} (h : Steps s t) :
    t.trace.length + t.stepBound ≤ s.trace.length + s.stepBound := by
  rcases h.complete_or_status with ⟨b0, b1, op, hfetch, rfl⟩ | hsame
  · have hbound := stepBound_complete_lt hfetch op (regOf b0) (operandOf b0 b1)
    rw [complete_trace, List.length_append, List.length_singleton]
    omega
  · rw [hsame]
    exact le_rfl

/-- Settles O47: the bound falls until the run ends, and each record has cost one of it. -/
theorem everyRunEnds : Obligations.EveryRunEnds := by
  refine ⟨fun s => runSteps_ends (Nat.lt_succ_self _), fun s n => ?_⟩
  have hle : (s.runSteps n).trace.length + (s.runSteps n).stepBound ≤ s.trace.length + s.stepBound :=
    runSteps_induction (P := fun t => t.trace.length + t.stepBound ≤ s.trace.length + s.stepBound)
      (fun _ _ ht hstep => (steps_of_step hstep).trace_length_add_stepBound_le.trans ht) le_rfl n
  omega

/-- What is known of every state of a run on a stream and a window: the inputs and the three
invariants. -/
structure Reached (S : List Byte) (w : Window) (s : State) : Prop where
  stream  : s.stream = S
  window  : s.window = w
  values  : s.ValuesOk
  control : s.ControlOk
  data    : s.TraceExplains

theorem reached_start (S : List Byte) (w : Window) : Reached S w (State.start S w) :=
  ⟨rfl, rfl, valuesHoldAtStart.1 S w, controlHoldsAtStart.1 S w, traceExplainsStart.1 S w⟩

theorem Reached.step {S : List Byte} {w : Window} {s t : State} (h : Reached S w s)
    (hstep : step s = .next t) : Reached S w t := by
  obtain ⟨hstream, hwindow⟩ := (steps_of_step hstep).inputs_eq
  exact ⟨hstream.trans h.stream, hwindow.trans h.window, stepKeepsValues s t h.values hstep,
    stepKeepsControl s t h.control hstep, stepKeepsTraceExplaining s t h.data hstep⟩

/-- Settles O48: the state the outputs are read from is the last one of the run. -/
theorem runOutputsAreAccountedFor : Obligations.RunOutputsAreAccountedFor := by
  intro S w
  have hlast := runSteps_induction (fun _ _ h hstep => Reached.step h hstep) (reached_start S w)
    ((State.start S w).stepBound + 1)
  exact ⟨runSteps_ends (Nat.lt_succ_self _), _, rfl, hlast.stream, hlast.window, hlast.values,
    hlast.control, hlast.data⟩

end Sys2Proof.Machine
end

-- ==== Encoder: mnemonics, integers and tokens ====
section
/-! The lexical rules of a line (R68, D12): which texts are mnemonics, which are integers, and where a
line is split. -/

namespace Sys2Proof.Machine

/-! ## Mnemonics -/

theorem parseMnemonic_mnemonicText (op : Opcode) : parseMnemonic (mnemonicText op) = some op := by
  cases op <;> rfl

theorem eq_mnemonicText_of_parseMnemonic {t : List Char} {op : Opcode}
    (h : parseMnemonic t = some op) : t = mnemonicText op := by
  unfold parseMnemonic at h
  split_ifs at h with hconst hload hstore hmod <;> obtain rfl := Option.some.inj h <;> assumption

/-- Settles O53. -/
theorem mnemonicsAreMatchedExactly : Obligations.MnemonicsAreMatchedExactly :=
  ⟨fun _ op => ⟨eq_mnemonicText_of_parseMnemonic, fun h => h ▸ parseMnemonic_mnemonicText op⟩,
    by decide, by decide, by decide, by decide⟩

/-! ## Integers -/

/-- The digit characters stand in a row from `0`, which is character 48. -/
theorem toNat_digitChar {d : Nat} (h : d < 10) : (digitChar d).toNat = 48 + d := by
  have hvalid : (48 + d).isValidChar := .inl (by omega)
  rw [digitChar, Char.toNat_ofNat, if_pos hvalid]

theorem digitValue_eq_some_iff (c : Char) (d : Nat) :
    digitValue c = some d ↔ d < 10 ∧ c = digitChar d := by
  have h0 : '0'.toNat = 48 := rfl
  have h9 : '9'.toNat = 57 := rfl
  rw [digitValue, h0, h9]
  constructor
  · intro h
    split_ifs at h with hrange
    obtain rfl := Option.some.inj h
    refine ⟨by omega, ?_⟩
    rw [digitChar, Nat.add_sub_cancel' hrange.1, Char.ofNat_toNat]
  · rintro ⟨hd, rfl⟩
    rw [toNat_digitChar hd, if_pos ⟨by omega, by omega⟩, Nat.add_sub_cancel_left]

/-- Digits are read by the fold that `decimalValue` is, from the value read so far. -/
theorem parseDigits_eq_some_iff (acc : Nat) (cs : List Char) (n : Nat) :
    parseDigits acc cs = some n ↔
      ∃ ds : List Nat, (∀ d ∈ ds, d < 10) ∧ cs = ds.map digitChar ∧
        n = ds.foldl (fun n d => 10 * n + d) acc := by
  induction cs generalizing acc with
  | nil =>
    constructor
    · intro h
      exact ⟨[], List.forall_mem_nil _, rfl, (Option.some.inj h).symm⟩
    · rintro ⟨ds, -, hmap, rfl⟩
      obtain rfl := List.map_eq_nil_iff.mp hmap.symm
      rfl
  | cons c cs ih =>
    constructor
    · intro h
      cases hdigit : digitValue c with
      | none =>
        rw [parseDigits, hdigit] at h
        cases h
      | some d =>
        rw [parseDigits, hdigit] at h
        obtain ⟨hd, rfl⟩ := (digitValue_eq_some_iff c d).mp hdigit
        obtain ⟨ds, hds, rfl, rfl⟩ := (ih _).mp h
        exact ⟨d :: ds, List.forall_mem_cons.mpr ⟨hd, hds⟩, rfl, rfl⟩
    · rintro ⟨ds, hds, hmap, rfl⟩
      cases ds with
      | nil => cases hmap
      | cons d ds =>
        obtain ⟨hd, hds⟩ := List.forall_mem_cons.mp hds
        obtain ⟨hc, hcs⟩ := List.cons.inj hmap
        rw [parseDigits, (digitValue_eq_some_iff c d).mpr ⟨hd, hc⟩]
        exact (ih _).mpr ⟨ds, hds, hcs, rfl⟩

/-- A natural is one or more decimal digits (D12). -/
theorem parseNatural_eq_some_iff (cs : List Char) (n : Nat) :
    parseNatural cs = some n ↔
      ∃ ds : List Nat, ds ≠ [] ∧ (∀ d ∈ ds, d < 10) ∧ cs = ds.map digitChar ∧ n = decimalValue ds := by
  cases cs with
  | nil =>
    refine ⟨nofun, ?_⟩
    rintro ⟨ds, hne, -, hmap, -⟩
    exact absurd (List.map_eq_nil_iff.mp hmap.symm) hne
  | cons c cs =>
    rw [parseNatural, parseDigits_eq_some_iff]
    constructor
    · rintro ⟨ds, hds, hmap, hn⟩
      have hne : ds ≠ [] := by
        rintro rfl
        cases hmap
      exact ⟨ds, hne, hds, hmap, hn⟩
    · rintro ⟨ds, -, hds, hmap, hn⟩
      exact ⟨ds, hds, hmap, hn⟩

theorem parseInteger_minus (cs : List Char) :
    parseInteger ('-' :: cs) = (parseNatural cs).map fun (n : Nat) => -(n : Int) := rfl

theorem parseInteger_of_not_minus {t : List Char} (h : ∀ cs, t ≠ '-' :: cs) :
    parseInteger t = (parseNatural t).map fun (n : Nat) => (n : Int) := by
  unfold parseInteger
  split
  next cs => exact absurd rfl (h cs)
  next => rfl

theorem digitChar_ne_minus {d : Nat} (h : d < 10) : digitChar d ≠ '-' := by
  intro heq
  have hvalue := toNat_digitChar h
  rw [heq] at hvalue
  have hminus : '-'.toNat = 45 := rfl
  omega

/-- Digits do not begin with the minus sign. -/
theorem map_digitChar_ne_minus {ds : List Nat} (hds : ∀ d ∈ ds, d < 10) (cs : List Char) :
    ds.map digitChar ≠ '-' :: cs := by
  intro h
  cases ds with
  | nil => cases h
  | cons d ds => exact digitChar_ne_minus (hds d (List.mem_cons_self ..)) (List.cons.inj h).1

/-- Settles O54, by whether the token begins with the minus sign. -/
theorem integerTokensAreDecimal : Obligations.IntegerTokensAreDecimal := by
  intro t v
  by_cases hminus : ∃ cs, t = '-' :: cs
  · obtain ⟨cs, rfl⟩ := hminus
    simp only [parseInteger_minus, Option.map_eq_some_iff, parseNatural_eq_some_iff]
    constructor
    · rintro ⟨n, ⟨ds, hne, hds, rfl, rfl⟩, rfl⟩
      exact ⟨ds, hne, hds, .inr ⟨rfl, rfl⟩⟩
    · rintro ⟨ds, hne, hds, ⟨hmap, -⟩ | ⟨hcons, rfl⟩⟩
      · exact absurd hmap.symm (map_digitChar_ne_minus hds cs)
      · exact ⟨_, ⟨ds, hne, hds, (List.cons.inj hcons).2, rfl⟩, rfl⟩
  · have hnot : ∀ cs, t ≠ '-' :: cs := fun cs h => hminus ⟨cs, h⟩
    simp only [parseInteger_of_not_minus hnot, Option.map_eq_some_iff, parseNatural_eq_some_iff]
    constructor
    · rintro ⟨n, ⟨ds, hne, hds, rfl, rfl⟩, rfl⟩
      exact ⟨ds, hne, hds, .inl ⟨rfl, rfl⟩⟩
    · rintro ⟨ds, hne, hds, ⟨hmap, rfl⟩ | ⟨hcons, -⟩⟩
      · exact ⟨_, ⟨ds, hne, hds, hmap, rfl⟩, rfl⟩
      · exact absurd hcons (hnot _)

/-! ## Tokens -/

/-- Characters that are no separators come to the front of the first token after them. -/
theorem splitTokens_token_append {m rest t : List Char} {ts : List (List Char)}
    (hm : ∀ c ∈ m, isSeparator c = false) (hrest : splitTokens rest = t :: ts) :
    splitTokens (m ++ rest) = (m ++ t) :: ts := by
  induction m with
  | nil => exact hrest
  | cons c m ih =>
    obtain ⟨hc, hm⟩ := List.forall_mem_cons.mp hm
    simp [splitTokens, hc, ih hm]

theorem splitTokens_separator_of_not {c d : Char} {rest : List Char} (hc : isSeparator c = true)
    (hd : isSeparator d = false) :
    splitTokens (c :: d :: rest) = [] :: splitTokens (d :: rest) := by
  simp [splitTokens, hc, hd]

theorem splitTokens_separator_of_separator {c d : Char} {rest : List Char} (hc : isSeparator c = true)
    (hd : isSeparator d = true) : splitTokens (c :: d :: rest) = splitTokens (d :: rest) := by
  simp [splitTokens, hc, hd]

/-- A run of separators before a token ends the token before it, however long the run is. -/
theorem splitTokens_separators_append {sep : List Char} (hne : sep ≠ [])
    (hsep : ∀ c ∈ sep, isSeparator c = true) {d : Char} (hd : isSeparator d = false)
    (rest : List Char) : splitTokens (sep ++ d :: rest) = [] :: splitTokens (d :: rest) := by
  induction sep with
  | nil => exact absurd rfl hne
  | cons c sep ih =>
    obtain ⟨hc, hsep⟩ := List.forall_mem_cons.mp hsep
    cases sep with
    | nil => exact splitTokens_separator_of_not hc hd
    | cons c' sep =>
      have hc' := hsep c' (List.mem_cons_self ..)
      rw [← ih (List.cons_ne_nil c' sep) hsep]
      exact splitTokens_separator_of_separator hc hc'

/-- A token, separators and another token's text are split between the two. -/
theorem splitTokens_token_separators {m sep t : List Char} (hm : ∀ c ∈ m, isSeparator c = false)
    (hne : sep ≠ []) (hsep : ∀ c ∈ sep, isSeparator c = true) (ht : t ≠ [])
    (htoken : ∀ c ∈ t, isSeparator c = false) (rest : List Char) :
    splitTokens (m ++ (sep ++ (t ++ rest))) = m :: splitTokens (t ++ rest) := by
  cases t with
  | nil => exact absurd rfl ht
  | cons d t =>
    have hd := htoken d (List.mem_cons_self ..)
    rw [List.cons_append,
      splitTokens_token_append hm (splitTokens_separators_append hne hsep hd (t ++ rest)),
      List.append_nil]

/-- A text without separators is one token. -/
theorem splitTokens_single {t : List Char} (h : ∀ c ∈ t, isSeparator c = false) :
    splitTokens t = [t] := by
  have hsplit := splitTokens_token_append (rest := []) (t := []) (ts := []) h rfl
  rwa [List.append_nil] at hsplit

/-- Settles O55: the two runs of separators split the line twice. -/
theorem tokensSplitAtSeparators : Obligations.TokensSplitAtSeparators := by
  intro m a b sep sep' _ ha hb hne hne' htoken hseparator
  simp only [List.forall_mem_append] at htoken hseparator
  obtain ⟨⟨hm, ha'⟩, hb'⟩ := htoken
  obtain ⟨hsep, hsep'⟩ := hseparator
  have hlast := splitTokens_token_separators ha' hne' hsep' hb hb' []
  rw [List.append_nil, splitTokens_single hb'] at hlast
  rw [List.append_assoc, List.append_assoc, List.append_assoc,
    splitTokens_token_separators hm hne hsep ha ha', hlast]

end Sys2Proof.Machine
end

-- ==== Encoder: lines and their assembly ====
section
/-! The Encoder on a line and on a sequence of lines (R69 to R72). -/

namespace Sys2Proof.Machine

/-! ## The reasons of R70 -/

theorem encodeLine_of_parseLine_error {line : Line} {e : ValidationError}
    (h : parseLine line = .error e) : encodeLine line = .error e := by
  rw [encodeLine, h]

theorem parseLine_of_mnemonic_none {line : Line} {m : List Char} {operands : List (List Char)}
    (hsplit : splitTokens line = m :: operands) (hm : parseMnemonic m = none) :
    parseLine line = .error .unknownMnemonic := by
  simp only [parseLine, hsplit, hm]

theorem parseLine_of_token_count {line : Line} {m : List Char} {operands : List (List Char)} {op : Opcode}
    (hsplit : splitTokens line = m :: operands) (hm : parseMnemonic m = some op)
    (hcount : operands.length ≠ 2) : parseLine line = .error .tokenCount := by
  simp only [parseLine, hsplit, hm]
  split
  next => exact absurd rfl hcount
  next => rfl

theorem parseLine_of_not_integer {line : Line} {m a b : List Char} {op : Opcode}
    (hsplit : splitTokens line = [m, a, b]) (hm : parseMnemonic m = some op)
    (hnone : parseInteger a = none ∨ parseInteger b = none) : parseLine line = .error .notInteger := by
  simp only [parseLine, hsplit, hm]
  split
  next ha hb =>
    rcases hnone with h | h
    · cases h.symm.trans ha
    · cases h.symm.trans hb
  next => rfl

theorem parseLine_of_integers {line : Line} {m a b : List Char} {op : Opcode} {reg operand : Int}
    (hsplit : splitTokens line = [m, a, b]) (hm : parseMnemonic m = some op)
    (ha : parseInteger a = some reg) (hb : parseInteger b = some operand) :
    parseLine line = .ok (op, reg, operand) := by
  simp only [parseLine, hsplit, hm, ha, hb]

/-- Settles O56. -/
theorem lineReasonsInOrder : Obligations.LineReasonsInOrder := by
  intro line m operands hsplit
  refine ⟨?mnemonic, ?count, ?integers, ?range⟩
  case mnemonic =>
    intro hm
    exact encodeLine_of_parseLine_error (parseLine_of_mnemonic_none hsplit hm)
  case count =>
    intro op hm hcount
    exact encodeLine_of_parseLine_error (parseLine_of_token_count hsplit hm hcount)
  case integers =>
    rintro op a b hm rfl hnone
    exact encodeLine_of_parseLine_error (parseLine_of_not_integer hsplit hm hnone)
  case range =>
    rintro op a b reg operand hm rfl ha hb
    have hparse := parseLine_of_integers hsplit hm ha hb
    constructor
    · intro e hencode
      simp only [encodeLine, hparse, hencode]
    · intro bytes hencode
      simp only [encodeLine, hparse, hencode]

/-! ## Sequences of lines -/

theorem assemble_append (before after : List Line) :
    (assemble (before ++ after)).bytes = (assemble before).bytes ++ (assemble after).bytes ∧
      (assemble (before ++ after)).log = (assemble before).log ++ (assemble after).log := by
  induction before with
  | nil => exact ⟨rfl, rfl⟩
  | cons line before ih =>
    obtain ⟨hbytes, hlog⟩ := ih
    simp only [List.cons_append, assemble, hbytes, hlog, List.append_assoc, and_self]

theorem lineBytes_of_error {line : Line} {e : ValidationError} (h : encodeLine line = .error e) :
    lineBytes line = [] := by
  rw [lineBytes, h]

theorem lineBytes_of_ok {line : Line} {op : Opcode} {reg operand : Int} {bytes : List Byte}
    (h : encodeLine line = .ok (op, reg, operand, bytes)) : lineBytes line = bytes := by
  rw [lineBytes, h]

theorem assemble_log_length (lines : List Line) : (assemble lines).log.length = lines.length := by
  induction lines with
  | nil => rfl
  | cons line lines ih => rw [assemble, List.length_cons, List.length_cons, ih]

/-- Settles O57. -/
theorem rejectedLinesAreSkipped : Obligations.RejectedLinesAreSkipped := by
  refine ⟨assemble_append, ?rejected, ?accepted, assemble_log_length⟩
  case rejected =>
    intro before after line e h
    constructor
    · rw [(assemble_append before (line :: after)).1, (assemble_append before after).1, assemble,
        lineBytes_of_error h, List.nil_append]
    · rw [assemble, lineLog, h]
      rfl
  case accepted =>
    intro line op reg operand bytes h
    constructor
    · rw [assemble, lineBytes_of_ok h]
      exact List.append_nil bytes
    · rw [assemble, lineLog, h]
      rfl

end Sys2Proof.Machine
end

-- ==== Encoder: assembled streams stay on instruction boundaries ====
section
/-! A stream assembled from text (R71, R130, R131): it is a sequence of what `Encode` produced, and a
step from a boundary ends on the next one or ends the run. -/

namespace Sys2Proof.Machine

/-- A list of bytes that is a sequence of instructions as the codec encoded them (R71). -/
def IsEncoded (bytes : List Byte) : Prop :=
  ∃ chunks : List (List Byte), bytes = chunks.flatten ∧
    ∀ c ∈ chunks, ∃ op reg operand, encodeTriple op reg operand = .ok c

theorem onBoundary_iff (s : State) : s.OnBoundary ↔ IsEncoded (s.stream.drop s.pc) := Iff.rfl

theorem isEncoded_nil : IsEncoded [] := ⟨[], rfl, List.forall_mem_nil _⟩

theorem isEncoded_append {op : Opcode} {reg operand : Int} {bytes rest : List Byte}
    (h : encodeTriple op reg operand = .ok bytes) (hrest : IsEncoded rest) :
    IsEncoded (bytes ++ rest) := by
  obtain ⟨chunks, rfl, hchunks⟩ := hrest
  exact ⟨bytes :: chunks, rfl, List.forall_mem_cons.mpr ⟨⟨op, reg, operand, h⟩, hchunks⟩⟩

/-- An encoded sequence is empty, or begins with the bytes of a triple. -/
theorem IsEncoded.cases {bytes : List Byte} (h : IsEncoded bytes) :
    bytes = [] ∨ ∃ op reg operand first rest, encodeTriple op reg operand = .ok first ∧
      bytes = first ++ rest ∧ IsEncoded rest := by
  obtain ⟨chunks, rfl, hchunks⟩ := h
  cases chunks with
  | nil => exact .inl rfl
  | cons first chunks =>
    obtain ⟨⟨op, reg, operand, hfirst⟩, hchunks⟩ := List.forall_mem_cons.mp hchunks
    exact .inr ⟨op, reg, operand, first, chunks.flatten, hfirst, rfl, chunks, rfl, hchunks⟩

/-- The bytes of an accepted line are those of a triple (R67). -/
theorem encodeTriple_of_encodeLine {line : Line} {op : Opcode} {reg operand : Int} {bytes : List Byte}
    (h : encodeLine line = .ok (op, reg, operand, bytes)) :
    encodeTriple op reg operand = .ok bytes := by
  unfold encodeLine at h
  split at h
  next => cases h
  next =>
    split at h
    next hencode =>
      cases h
      exact hencode
    next => cases h

/-- A rejected line adds nothing to the sequence, an accepted one the bytes of its triple (R71). -/
theorem isEncoded_assemble (lines : List Line) : IsEncoded (assemble lines).bytes := by
  induction lines with
  | nil => exact isEncoded_nil
  | cons line lines ih =>
    rw [assemble]
    cases hline : encodeLine line with
    | error e => rwa [lineBytes_of_error hline]
    | ok accepted =>
      obtain ⟨op, reg, operand, bytes⟩ := accepted
      rw [lineBytes_of_ok hline]
      exact isEncoded_append (encodeTriple_of_encodeLine hline) ih

/-- On a boundary, past the halt test, a step fetches the two bytes of a legal tag, and one length of
its opcode further is the next boundary. -/
theorem State.OnBoundary.fetches {s : State} (h : s.OnBoundary) (hrunning : s.status = .running)
    (hin : s.pc ≤ s.window.high) (hlength : s.pc < s.stream.length) :
    ∃ (b0 b1 : Byte) (op : Opcode), s.Fetches b0 b1 ∧ tagOf b0 = op.tag ∧
      IsEncoded (s.stream.drop (s.pc + op.length)) := by
  rcases ((onBoundary_iff s).mp h).cases with hnil | ⟨op, reg, operand, first, rest, hfirst, hdrop, hrest⟩
  · exact absurd (List.drop_eq_nil_iff.mp hnil) (not_le.mpr hlength)
  · obtain ⟨b0, b1, hfetch, htag, -, -, hnext⟩ := fetches_encoded hfirst hrunning hin hdrop
    rw [← hnext] at hrest
    exact ⟨b0, b1, op, hfetch, htag, hrest⟩

/-- Both fetches of a step from one state find the same byte0. -/
theorem State.Fetches.byte0_unique {s : State} {b0 b1 c0 c1 : Byte} (h : s.Fetches b0 b1)
    (h' : s.Fetches c0 c1) : b0 = c0 :=
  Option.some.inj (h.byte0.symm.trans h'.byte0)

/-- Settles O58: on a boundary the rules of a missing byte1 and of an illegal tag do not apply, and a
completed instruction ends on the next boundary. -/
theorem assembledStreamsStayOnBoundaries : Obligations.AssembledStreamsStayOnBoundaries := by
  refine ⟨fun lines high => isEncoded_assemble lines, ?_⟩
  intro s t hs hboundary hstep
  cases steps_of_step hstep with
  | stay hhalted => cases hhalted.symm.trans hs
  | halt _ _ => exact ⟨hboundary, .inr (.inl rfl)⟩
  | missingByte1 _ hin hlength =>
    obtain ⟨b0, b1, op, hfetch, -, -⟩ := hboundary.fetches hs hin (by omega)
    exact absurd hfetch.lt_length (by omega)
  | illegal hfetch hnone =>
    obtain ⟨c0, c1, op, hfetch', htag, -⟩ :=
      hboundary.fetches hs hfetch.inWindow (Nat.lt_of_succ_lt hfetch.lt_length)
    rw [opcode_eq_none_iff_tag, tag_decodePair, hfetch.byte0_unique hfetch', htag] at hnone
    exact absurd hnone (opcode_tag_legal op)
  | outside _ _ _ _ => exact ⟨hboundary, .inr (.inr ⟨_, rfl⟩)⟩
  | @complete b0 b1 op hfetch htag _ =>
    obtain ⟨c0, c1, op', hfetch', htag', hnext⟩ :=
      hboundary.fetches hs hfetch.inWindow (Nat.lt_of_succ_lt hfetch.lt_length)
    obtain rfl : op = op' :=
      opcode_tag_injective (htag.symm.trans (hfetch.byte0_unique hfetch' ▸ htag'))
    refine ⟨?_, .inl ((complete_status s op _ _).trans hs)⟩
    rwa [onBoundary_iff, complete_stream, complete_pc]

end Sys2Proof.Machine
end
